-- ==== Sys2Proof/Word.lean ====
section
/-! DEFINITION. The widths of the command interface and of the stored data (R7, R8, R61 to R64). -/

namespace Sys2Proof

/-- A bit value, one bit wide (R7). -/
abbrev Bit := BitVec 1

/-- A byte of a bank, or a byte operand: an unsigned 8-bit value (R7, R13). -/
abbrev Byte := BitVec 8

/-- A bit index, byte index, range bound or element count: 16 bits, unsigned (R7). -/
abbrev Half := BitVec 16

/-- One word of a command or response packet (R12). -/
abbrev Word := BitVec 32

/-- A bank number as the header carries it: 4 bits, unsigned (R7). -/
abbrev BankNo := BitVec 4

/-- The rotation window as one value: 128 bits (R181). -/
abbrev Window := BitVec 128

/-- A command packet or a response packet: a sequence of 32-bit words (R12). -/
abbrev Packet := List Word

end Sys2Proof
end

