-- ==== Sys2Proof/Syntax.lean ====
section
/-! DEFINITION. The sixteen commands of the opcode map (R67), one constructor per row of spec/opcode_table.json, with their
operands in the order of R65: the bank first, then the operands left to right. A count that a packet carries beside a list
(`L`, `NI`, `NV`) is the length of that list. -/

namespace Sys2Proof

/-- A command, as the packet's fields give it. -/
inductive Instr where
  /-- R100: make bank `bk` a zero-filled buffer of the canonical length. -/
  | newEmptyBuffer (bk : BankNo)
  /-- R101: make bank `bk` a buffer that holds `vals`. -/
  | construct (bk : BankNo) (vals : List Byte)
  /-- R102: make bank `bk` an independent copy of bank `src`. -/
  | copy (bk src : BankNo)
  /-- R104: return the length of bank `bk`. -/
  | getLength (bk : BankNo)
  /-- R121: read the bit at index `i`. -/
  | getBit (bk : BankNo) (i : Half)
  /-- R122: write `v` to the bit at index `i`. -/
  | setBit (bk : BankNo) (i : Half) (v : Bit)
  /-- R123: read the bits at the indices `idx`, in that order. -/
  | getBits (bk : BankNo) (idx : List Half)
  /-- R124: write the bits `vals` at the indices `idx`, in list order. -/
  | setBits (bk : BankNo) (idx : List Half) (vals : List Bit)
  /-- R141: read byte `i`. -/
  | getByte (bk : BankNo) (i : Half)
  /-- R142: write `v` to byte `i`. -/
  | setByte (bk : BankNo) (i : Half) (v : Byte)
  /-- R143: read the inclusive byte range from `first` to `last`. -/
  | getBytes (bk : BankNo) (first last : Half)
  /-- R144: write `vals` to the inclusive byte range from `first` to `last`. -/
  | setBytes (bk : BankNo) (first last : Half) (vals : List Byte)
  /-- R162: compare the stored checksum with the computed one. -/
  | validateChecksum (bk : BankNo)
  /-- R163: write the computed checksum into the checksum byte. -/
  | fixChecksum (bk : BankNo)
  /-- R182: rotate the window left by one bit and count up. -/
  | rotateLeft (bk : BankNo)
  /-- R183: rotate the window right by one bit and count down. -/
  | rotateRight (bk : BankNo)
  deriving DecidableEq, Repr

/-- The bank a command acts on: the `BK` field of its header (R61); for copy the destination. -/
def Instr.bank : Instr → BankNo
  | .newEmptyBuffer bk => bk
  | .construct bk _ => bk
  | .copy bk _ => bk
  | .getLength bk => bk
  | .getBit bk _ => bk
  | .setBit bk _ _ => bk
  | .getBits bk _ => bk
  | .setBits bk _ _ => bk
  | .getByte bk _ => bk
  | .setByte bk _ _ => bk
  | .getBytes bk _ _ => bk
  | .setBytes bk _ _ _ => bk
  | .validateChecksum bk => bk
  | .fixChecksum bk => bk
  | .rotateLeft bk => bk
  | .rotateRight bk => bk

end Sys2Proof
end

