-- ==== Sys2Proof/WellFormed.lean ====
section
/-! DEFINITION. Which terms of `Instr` a packet can carry: every list's length fits the 16-bit count field that declares it
(R7, R65). All other operands have the width of their field by their type. -/

namespace Sys2Proof

/-- A list whose length a 16-bit count field can declare (R7). -/
def fitsCount {α : Type} (l : List α) : Bool := decide (l.length < 65536)

/-- The command can be encoded in one packet (R65). -/
def Instr.wellFormed : Instr → Bool
  | .newEmptyBuffer _ => true
  | .construct _ vals => fitsCount vals
  | .copy _ _ => true
  | .getLength _ => true
  | .getBit _ _ => true
  | .setBit _ _ _ => true
  | .getBits _ idx => fitsCount idx
  | .setBits _ idx vals => fitsCount idx && fitsCount vals
  | .getByte _ _ => true
  | .setByte _ _ _ => true
  | .getBytes _ _ _ => true
  | .setBytes _ _ _ vals => fitsCount vals
  | .validateChecksum _ => true
  | .fixChecksum _ => true
  | .rotateLeft _ => true
  | .rotateRight _ => true

end Sys2Proof
end

