-- ==== Sys2Proof/Decode.lean ====
section
/-! DEFINITION. The decoder of command packets, total on every sequence of 32-bit words and rejecting by name (R60 to R71,
the common checks 1 to 4 of R77), the encoder of R65, the byte transport of R43, and the words of the opcode table as packets. -/

namespace Sys2Proof

/-- The sixteen values of the opcode field that R67 assigns. -/
inductive Opcode where
  | newEmptyBuffer | construct | copy | getLength
  | getBit | setBit | getBits | setBits
  | getByte | setByte | getBytes | setBytes
  | validateChecksum | fixChecksum
  | rotateLeft | rotateRight
  deriving DecidableEq, Repr

/-- The four packet formats of R60. -/
inductive Format where
  /-- The header alone. -/
  | H
  /-- The header and the operand word. -/
  | HW
  /-- The header, then as many payload words as `A` says. -/
  | HL
  /-- The header, the operand word, then payload words. -/
  | HWL
  deriving DecidableEq, Repr

/-- Why the decoder rejects a packet: the common checks 1 to 4 of R77. A rejected packet is no stop of the machine: it gets a
response packet with the status code of the same name (R71). -/
inductive Reject where
  /-- R66: the packet is empty or its length is not the declared one (code 21). -/
  | malformedLength
  /-- R68: the opcode field holds an unassigned value (code 16). -/
  | illegalOpcode
  /-- R69: a reserved bit of the header, the operand word or a payload word is one (code 17). -/
  | reservedNonzero
  deriving DecidableEq, Repr

/-- What the decoder answers: the command, or the check that failed. -/
inductive Decoded where
  | accept (i : Instr)
  | reject (e : Reject)
  deriving DecidableEq, Repr

/-- The opcode map of R67. -/
def Opcode.code : Opcode → BitVec 8
  | .newEmptyBuffer => 0x01
  | .construct => 0x02
  | .copy => 0x03
  | .getLength => 0x04
  | .getBit => 0x10
  | .setBit => 0x11
  | .getBits => 0x12
  | .setBits => 0x13
  | .getByte => 0x20
  | .setByte => 0x21
  | .getBytes => 0x22
  | .setBytes => 0x23
  | .validateChecksum => 0x30
  | .fixChecksum => 0x31
  | .rotateLeft => 0x40
  | .rotateRight => 0x41

/-- Every row of the opcode map of R67. -/
def opcodeMap : List Opcode :=
  [.newEmptyBuffer, .construct, .copy, .getLength, .getBit, .setBit, .getBits, .setBits,
   .getByte, .setByte, .getBytes, .setBytes, .validateChecksum, .fixChecksum, .rotateLeft, .rotateRight]

/-- The command that an opcode field selects; none for the 240 unassigned values (R67, R68). -/
def opcodeOf (c : BitVec 8) : Option Opcode := opcodeMap.find? (fun o => o.code == c)

/-- The packet format of each command (R60, the column "format" of the opcode table). -/
def Opcode.format : Opcode → Format
  | .newEmptyBuffer => .H
  | .construct => .HL
  | .copy => .H
  | .getLength => .H
  | .getBit => .H
  | .setBit => .H
  | .getBits => .HL
  | .setBits => .HWL
  | .getByte => .H
  | .setByte => .HW
  | .getBytes => .HW
  | .setBytes => .HWL
  | .validateChecksum => .H
  | .fixChecksum => .H
  | .rotateLeft => .H
  | .rotateRight => .H

/-! The fields of the header and of the operand word. -/

/-- `OP`, bits 31:24 of the header (R61). -/
def fieldOp (h : Word) : BitVec 8 := h.extractLsb' 24 8

/-- `BK`, bits 23:20 of the header (R61). -/
def fieldBk (h : Word) : BankNo := h.extractLsb' 20 4

/-- `AUX`, bits 19:16 of the header (R61). -/
def fieldAux (h : Word) : BitVec 4 := h.extractLsb' 16 4

/-- `A`, bits 15:0 of the header (R61). -/
def fieldA (h : Word) : Half := h.extractLsb' 0 16

/-- `WB`, bits 31:16 of the operand word (R62). -/
def fieldWb (w : Word) : Half := w.extractLsb' 16 16

/-- `WC`, bits 15:0 of the operand word (R62). -/
def fieldWc (w : Word) : Half := w.extractLsb' 0 16

/-- The bit index of an index word, bits 15:0 (R63). -/
def indexField (w : Word) : Half := w.extractLsb' 0 16

/-- The bit value of a bit-value word, bit 0 (R63). -/
def bitField (w : Word) : Bit := w.extractLsb' 0 1

/-- The byte of a byte-value word, bits 7:0 (R64), and of setByte's operand word, `WC[7:0]` (R62). -/
def byteField (w : Word) : Byte := w.extractLsb' 0 8

/-! The declared length of a packet. -/

/-- How many payload words follow the operand word of an `HWL` packet with counts `A` and `WB` (R60, R65). -/
def Opcode.listWords (o : Opcode) (a wb : Nat) : Nat :=
  match o with
  | .setBits => a + wb
  | _ => wb

/-- The declared length of a packet, evaluated with its own `A` and `WB` (R65, R66, R70); none where the packet is too short to
hold the field that declares it. -/
def Opcode.declaredLength (o : Opcode) (p : Packet) : Option Nat :=
  match o.format, p with
  | _, [] => none
  | .H, _ :: _ => some 1
  | .HW, _ :: _ => some 2
  | .HL, h :: _ => some (1 + (fieldA h).toNat)
  | .HWL, [_] => none
  | .HWL, h :: w :: _ => some (2 + o.listWords (fieldA h).toNat (fieldWb w).toNat)

/-! The reserved bits. -/

/-- No reserved bit of the header is one (R61, R65, R69). -/
def Opcode.headerClear (o : Opcode) (h : Word) : Bool :=
  match o with
  | .copy => fieldA h == 0
  | .setBit => (fieldAux h).extractLsb' 1 3 == 0
  | .construct | .getBit | .getBits | .setBits | .getByte | .setByte | .getBytes | .setBytes => fieldAux h == 0
  | .newEmptyBuffer | .getLength | .validateChecksum | .fixChecksum | .rotateLeft | .rotateRight =>
      fieldAux h == 0 && fieldA h == 0

/-- An index word's bits 31:16 are zero (R63). -/
def indexWordClear (w : Word) : Bool := w.extractLsb' 16 16 == 0

/-- A bit-value word's bits 31:1 are zero (R63). -/
def bitWordClear (w : Word) : Bool := w.extractLsb' 1 31 == 0

/-- A byte-value word's bits 31:8 are zero (R64); so are `WB` and `WC[15:8]` of setByte's operand word (R62). -/
def byteWordClear (w : Word) : Bool := w.extractLsb' 8 24 == 0

/-- No reserved bit of the words after the header is one (R62 to R65, R69). -/
def Opcode.restClear (o : Opcode) (h : Word) (rest : Packet) : Bool :=
  match o with
  | .construct => rest.all byteWordClear
  | .getBits => rest.all indexWordClear
  | .setBits =>
      (rest.take 1).all (fun w => fieldWc w == 0) &&
      ((rest.drop 1).take (fieldA h).toNat).all indexWordClear &&
      ((rest.drop 1).drop (fieldA h).toNat).all bitWordClear
  | .setByte => rest.all byteWordClear
  | .getBytes => rest.all (fun w => fieldWb w == 0)
  | .setBytes => (rest.drop 1).all byteWordClear
  | .newEmptyBuffer | .copy | .getLength | .getBit | .setBit | .getByte | .validateChecksum | .fixChecksum
  | .rotateLeft | .rotateRight => true

/-! The operands. -/

/-- The command that a packet of the declared length carries (R65): every operand is an unsigned field of its width. -/
def Opcode.assemble (o : Opcode) (h : Word) (rest : Packet) : Instr :=
  match o with
  | .newEmptyBuffer => .newEmptyBuffer (fieldBk h)
  | .construct => .construct (fieldBk h) (rest.map byteField)
  | .copy => .copy (fieldBk h) (fieldAux h)
  | .getLength => .getLength (fieldBk h)
  | .getBit => .getBit (fieldBk h) (fieldA h)
  | .setBit => .setBit (fieldBk h) (fieldA h) ((fieldAux h).extractLsb' 0 1)
  | .getBits => .getBits (fieldBk h) (rest.map indexField)
  | .setBits =>
      .setBits (fieldBk h) (((rest.drop 1).take (fieldA h).toNat).map indexField)
        (((rest.drop 1).drop (fieldA h).toNat).map bitField)
  | .getByte => .getByte (fieldBk h) (fieldA h)
  | .setByte => .setByte (fieldBk h) (fieldA h) (byteField (rest.headD 0))
  | .getBytes => .getBytes (fieldBk h) (fieldA h) (fieldWc (rest.headD 0))
  | .setBytes => .setBytes (fieldBk h) (fieldA h) (fieldWc (rest.headD 0)) ((rest.drop 1).map byteField)
  | .validateChecksum => .validateChecksum (fieldBk h)
  | .fixChecksum => .fixChecksum (fieldBk h)
  | .rotateLeft => .rotateLeft (fieldBk h)
  | .rotateRight => .rotateRight (fieldBk h)

/-- The decoder: total on every sequence of words (R71), with the common checks 1 to 4 of R77 in their order. -/
def decode (p : Packet) : Decoded :=
  match p with
  | [] => .reject .malformedLength
  | h :: rest =>
    match opcodeOf (fieldOp h) with
    | none => .reject .illegalOpcode
    | some o =>
      if o.declaredLength (h :: rest) ≠ some (rest.length + 1) then .reject .malformedLength
      else if o.headerClear h && o.restClear h rest then .accept (o.assemble h rest)
      else .reject .reservedNonzero

/-! The encoder, written from the same tables (R61 to R65). -/

/-- A header word with its four fields (R61). -/
def headerWord (o : Opcode) (bk : BankNo) (aux : BitVec 4) (a : Half) : Word := o.code ++ bk ++ aux ++ a

/-- An operand word with its two fields (R62). -/
def operandWord (wb wc : Half) : Word := wb ++ wc

/-- The count field that declares a list of this length (R7). -/
def countField {α : Type} (l : List α) : Half := BitVec.ofNat 16 l.length

/-- An index word (R63). -/
def indexWord (i : Half) : Word := i.setWidth 32

/-- A bit-value word (R63). -/
def bitWord (v : Bit) : Word := v.setWidth 32

/-- A byte-value word (R64). -/
def byteWord (v : Byte) : Word := v.setWidth 32

/-- The packet of a command (R65), every reserved bit zero. -/
def encode : Instr → Packet
  | .newEmptyBuffer bk => [headerWord .newEmptyBuffer bk 0 0]
  | .construct bk vals => headerWord .construct bk 0 (countField vals) :: vals.map byteWord
  | .copy bk src => [headerWord .copy bk src 0]
  | .getLength bk => [headerWord .getLength bk 0 0]
  | .getBit bk i => [headerWord .getBit bk 0 i]
  | .setBit bk i v => [headerWord .setBit bk (v.setWidth 4) i]
  | .getBits bk idx => headerWord .getBits bk 0 (countField idx) :: idx.map indexWord
  | .setBits bk idx vals =>
      headerWord .setBits bk 0 (countField idx) :: operandWord (countField vals) 0 ::
        (idx.map indexWord ++ vals.map bitWord)
  | .getByte bk i => [headerWord .getByte bk 0 i]
  | .setByte bk i v => [headerWord .setByte bk 0 i, operandWord 0 (v.setWidth 16)]
  | .getBytes bk first last => [headerWord .getBytes bk 0 first, operandWord 0 last]
  | .setBytes bk first last vals =>
      headerWord .setBytes bk 0 first :: operandWord (countField vals) last :: vals.map byteWord
  | .validateChecksum bk => [headerWord .validateChecksum bk 0 0]
  | .fixChecksum bk => [headerWord .fixChecksum bk 0 0]
  | .rotateLeft bk => [headerWord .rotateLeft bk 0 0]
  | .rotateRight bk => [headerWord .rotateRight bk 0 0]

/-- The row of the opcode map that a command belongs to (R67). -/
def Instr.opcode : Instr → Opcode
  | .newEmptyBuffer _ => .newEmptyBuffer
  | .construct _ _ => .construct
  | .copy _ _ => .copy
  | .getLength _ => .getLength
  | .getBit _ _ => .getBit
  | .setBit _ _ _ => .setBit
  | .getBits _ _ => .getBits
  | .setBits _ _ _ => .setBits
  | .getByte _ _ => .getByte
  | .setByte _ _ _ => .setByte
  | .getBytes _ _ _ => .getBytes
  | .setBytes _ _ _ _ => .setBytes
  | .validateChecksum _ => .validateChecksum
  | .fixChecksum _ => .fixChecksum
  | .rotateLeft _ => .rotateLeft
  | .rotateRight _ => .rotateRight

/-! The byte transport of R43. -/

/-- A word on a byte-wide transport: least-significant byte first (R43). -/
def wordToBytes (w : Word) : List Byte :=
  [w.extractLsb' 0 8, w.extractLsb' 8 8, w.extractLsb' 16 8, w.extractLsb' 24 8]

/-- A packet on a byte-wide transport: its words in order, each least-significant byte first (R43). -/
def packetToBytes (p : Packet) : List Byte := p.flatMap wordToBytes

/-- The packet that a byte-wide transport delivers; none for bytes that are no whole number of words (R43). -/
def packetOfBytes : List Byte → Option Packet
  | [] => some []
  | b0 :: b1 :: b2 :: b3 :: rest => (packetOfBytes rest).map (fun p => (b3 ++ b2 ++ b1 ++ b0) :: p)
  | _ => none

/-! The rows of the opcode table as packets. -/

/-- Word `k` of a command whose bits are `w`, of which the table gives `nbits`: every bit above them is zero. -/
def tableWordAt (nbits w k : Nat) : Word := BitVec.ofNat 32 (w % 2 ^ nbits / 2 ^ (32 * k))

/-- How many words the packet of a table row has: as many as its own counts declare (R65), and never fewer than the table's
bits fill. -/
def tablePacketLength (nbits w : Nat) : Nat :=
  let given := (nbits + 31) / 32
  let header := [tableWordAt nbits w 0, tableWordAt nbits w 1]
  match opcodeOf (fieldOp (tableWordAt nbits w 0)) with
  | none => given
  | some o => max given ((o.declaredLength header).getD 0)

/-- The packet of a table row: its bits, laid out least-significant word first, followed by operand and payload words of zeros as
the header declares them. -/
def tablePacket (nbits w : Nat) : Packet := (List.range (tablePacketLength nbits w)).map (tableWordAt nbits w)

/-- The command that the decoder reads from a table row's bits. -/
def decodeTableWord (nbits w : Nat) : Option Instr :=
  match decode (tablePacket nbits w) with
  | .accept i => some i
  | .reject _ => none

end Sys2Proof
end

