-- ==== Sys2Proof/Config.lean ====
section
/-! DEFINITION. The implementation parameters of R6: the fixed positions as named constants, and the three parameters
an implementation chooses (`NB`, `CAP`, `CSUM_LO`) as a record that the state of an instance carries unchanged. -/

namespace Sys2Proof.Config

/-- `EMPTY_LEN`: the length that newEmptyBuffer produces (R6). -/
def emptyLen : Nat := 20

/-- `WIN_LO`: the first byte of the rotation window (R6). -/
def winLo : Nat := 0

/-- `WIN_HI`: the last byte of the rotation window (R6). -/
def winHi : Nat := 15

/-- `CTR_POS`: the rotation counter byte (R6). -/
def ctrPos : Nat := 16

/-- `CSUM_HI`: the last byte of the summed range (R6). -/
def csumHi : Nat := 16

/-- `CSUM_POS`: the checksum byte (R6). -/
def csumPos : Nat := 17

end Sys2Proof.Config

namespace Sys2Proof

/-- The parameters an implementation fixes (R6). They belong to the configuration of an instance of the block and not to
its architectural state (R21): no command and no reset changes them (R231). -/
structure Config where
  /-- `NB`: how many banks the block has. -/
  nb : Nat
  /-- `CAP`: the largest length of a bank, in bytes. -/
  cap : Nat
  /-- `CSUM_LO`: the first byte of the summed range (open in the source: C1, D14). -/
  csumLo : Nat
  deriving DecidableEq, Repr

/-- The legal ranges of R6: `NB` 1 to 16, `CAP` 20 to 8192, `CSUM_LO` 0 or 6. -/
abbrev Config.Legal (c : Config) : Prop :=
  (1 ≤ c.nb ∧ c.nb ≤ 16) ∧ (20 ≤ c.cap ∧ c.cap ≤ 8192) ∧ (c.csumLo = 0 ∨ c.csumLo = 6)

/-- The defaults of R6: `NB = 2`, `CAP = 20`, `CSUM_LO = 6`. -/
def Config.default : Config := ⟨2, 20, 6⟩

end Sys2Proof
end

