-- ==== Sys2Proof/Machine/State.lean ====
section
/-! DEFINITION. The state of the block (R21, R22) and the two queues of its command port, as plain data; why a step could
stop; the status codes of R76; and the state after reset (R35, R230). -/

namespace Sys2Proof.Machine

/-- The status codes of R76, by name. Every one is carried by a response packet; none of them stops the machine. -/
inductive Status where
  /-- Code 0: the command completed. -/
  | ok
  /-- Code 1: host adapter only (D10); the block never produces it. -/
  | missingArg
  /-- Code 2: host adapter only (D10); the block never produces it. -/
  | notANumber
  /-- Code 3: host adapter only (D10); the block never produces it. -/
  | notAnArray
  /-- Code 4: setBits with differing counts (R124). -/
  | bitsMismatch
  /-- Code 5: setBytes with a count that does not match its range (R144). -/
  | bytesMismatch
  /-- Code 6: host adapter only (D10); the block never produces it. -/
  | notNumbers
  /-- Code 7: an index, bound or fixed position outside the bank (R120, R140, R160, R180). -/
  | outOfBounds
  /-- Code 8: a range whose start is above its end (R140). -/
  | rangeOrder
  /-- Code 9: the stored checksum is not the computed one (R162). -/
  | checksum
  /-- Code 10: the source of a copy is no constructed bank (R102). -/
  | copySource
  /-- Code 16: an unassigned opcode (R68). -/
  | illegalOpcode
  /-- Code 17: a reserved bit is one (R69). -/
  | reservedNonzero
  /-- Code 18: a bank number the block does not have (R77). -/
  | badBank
  /-- Code 19: the bank is unconstructed (R23). -/
  | notConstructed
  /-- Code 20: construct with more bytes than a bank can hold (R101). -/
  | capacity
  /-- Code 21: a packet of a length other than the declared one (R66). -/
  | malformedLength
  deriving DecidableEq, Repr

/-- The bytes of a bank: the positions that hold a byte other than zero, rising, each with its byte. A position of the bank
that is not listed holds 0x00. -/
abbrev Memory := List Host.Cell

/-- One bank (R22). -/
structure Bank where
  /-- `VALID`: the bank has been constructed since reset (R22, R23). -/
  valid : Bool
  /-- `LEN`: the length in bytes, 0 to `CAP` (R22). -/
  len : Nat
  /-- `BYTES`: the bytes at positions 0 to `LEN - 1` (R22). -/
  bytes : Memory
  deriving DecidableEq, Repr

/-- A bank after reset (R35): `VALID = 0`. `LEN` and the bytes are unspecified there and never observed (R232); the model
holds `LEN = 0` and lists no byte. DESIGN CHOICE (log entry 3), unsafe. -/
def Bank.unconstructed : Bank := ⟨false, 0, []⟩

/-- What the outside world presents to the block: packets at the command port (R3, R20), and reset (R230). -/
inductive Input where
  /-- One complete command packet. -/
  | packet (p : Packet)
  /-- Reset; `cut` is the packet that was being presented when it arrived, if there was one. That packet is discarded (R230). -/
  | reset (cut : Option Packet)
  deriving DecidableEq, Repr

/-- The block and its command port. `banks` is all the architectural state (R21); `cfg` is the configuration of this instance
(R6), and `port` and `out` are the two sides of the command port (R3), held so that a step can be a function of the state. -/
structure State where
  /-- The parameters of this instance (R6), which no step changes (R231). -/
  cfg : Config
  /-- `bank[0 .. NB-1]` (R21). -/
  banks : List Bank
  /-- What the outside world has yet to present, in order. -/
  port : List Input
  /-- The response packets returned so far, oldest first (R75, R237). -/
  out : List Packet
  deriving DecidableEq, Repr

/-- Why a step could stop with a fault. There is no such reason: every command ends with a response packet, and an error is a
status code after which the block goes on (R11, R71, R200, R204). Safe. -/
inductive Fault where
  deriving DecidableEq, Repr

/-- Why a step could be refused. -/
inductive Refusal where
  /-- Raised by an arm of `exec` for an instruction without a meaning; no arm raises it any more. Safe. -/
  | notModelled (mnemonic : String)
  deriving DecidableEq, Repr

/-- The block right after reset with parameters `c` (R35, R230): every bank unconstructed, nothing presented, nothing returned. -/
def State.resetOf (c : Config) : State := ⟨c, List.replicate c.nb Bank.unconstructed, [], []⟩

/-- The block right after reset, with the default parameters of R6. -/
def State.reset : State := State.resetOf Config.default

end Sys2Proof.Machine
end

