-- ==== Sys2Proof/Machine/Flags.lean ====
section
/-! DEFINITION. What the block has in place of flags. It has no status flags and no condition codes (R26): the outcome of a
command is its status code, carried in the status word of its response packet and not retained. -/

namespace Sys2Proof.Machine

/-- The number of each status code (R76). -/
def Status.code : Status → BitVec 8
  | .ok => 0
  | .missingArg => 1
  | .notANumber => 2
  | .notAnArray => 3
  | .bitsMismatch => 4
  | .bytesMismatch => 5
  | .notNumbers => 6
  | .outOfBounds => 7
  | .rangeOrder => 8
  | .checksum => 9
  | .copySource => 10
  | .illegalOpcode => 16
  | .reservedNonzero => 17
  | .badBank => 18
  | .notConstructed => 19
  | .capacity => 20
  | .malformedLength => 21

/-- The message substring that the software reports for a status code, where R76 gives one. It is never part of a response. -/
def Status.substring : Status → Option String
  | .missingArg => some "Must provide"
  | .notANumber => some "must be a number"
  | .notAnArray => some "as an array"
  | .bitsMismatch => some "do not match"
  | .bytesMismatch => some "does not match byte range"
  | .notNumbers => some "must be numbers"
  | .outOfBounds => some "out-of-bounds"
  | .rangeOrder => some "must be greater-than or equal to"
  | .checksum => some "expected checksum"
  | .copySource => some "only takes BitBuffers"
  | .ok | .illegalOpcode | .reservedNonzero | .badBank | .notConstructed | .capacity | .malformedLength => none

/-- The status word `S`: `RN` in bits 31:16, zero in bits 15:8, `CODE` in bits 7:0 (R75). -/
def statusWord (c : Status) (rn : Nat) : Word := BitVec.ofNat 16 rn ++ (0 : BitVec 8) ++ c.code

/-- The response packet of a command that completed with these result words (R75). -/
def okPacket (results : List Word) : Packet := statusWord .ok results.length :: results

/-- The response packet of a command that failed: the status word alone, with `RN = 0` (R75). -/
def errorPacket (c : Status) : Packet := [statusWord c 0]

end Sys2Proof.Machine
end

