-- ==== Sys2Proof/Machine/Operands.lean ====
section
/-! DEFINITION. The checks on operands that several commands share, each answering the status code it reports, if any: the bit
bound of R120, the range check of R140, and the fixed positions of R160 and R180. -/

namespace Sys2Proof.Machine

/-- `BitInBounds(i)`: a bit index inside a bank of length `len` (R120). -/
def bitInBounds (len i : Nat) : Bool := decide (i < 8 * len)

/-- The check on a list of bit indices: every one is in bounds, before any is read or written (R123, R124). -/
def bitsCheck (len : Nat) (idx : List Nat) : Option Status :=
  if idx.all (bitInBounds len) then none else some .outOfBounds

/-- `RangeCheck(s, e)`: first the order of the bounds, then the bounds against the length (R140). -/
def rangeCheck (len first last : Nat) : Option Status :=
  if last < first then some .rangeOrder
  else if len ≤ first ∨ len ≤ last then some .outOfBounds
  else none

/-- The check that a bank reaches a fixed position: the checksum byte (R160) or the counter byte (R180). -/
def positionCheck (len pos : Nat) : Option Status := if len ≤ pos then some .outOfBounds else none

/-- A command body behind a check: the check's status code where it reports one, the body's answer otherwise (R11). -/
def afterCheck {α : Type} (check : Option Status) (body : Except Status α) : Except Status α :=
  match check with
  | some c => .error c
  | none => body

end Sys2Proof.Machine
end

