-- ==== Sys2Proof/Machine/Ops.lean ====
section
/-! DEFINITION. The operations that the meanings share: the bytes of a bank in one canonical form, the state primitives of R10
and R120, the checksum of R161, the window of R181, completing and failing a command (R11, R75), the common checks 5 to 8 of
R77, and the reset event of R230. -/

namespace Sys2Proof.Machine

/-! ## The bytes of a bank -/

/-- What a position of a constructed bank holds when it is not listed: 0x00. It stands for a zero that was written. -/
def unlistedByte : Byte := 0

/-- The byte at a position. -/
def Memory.read (m : Memory) (a : Nat) : Byte :=
  match m with
  | [] => unlistedByte
  | c :: rest => if c.1 = a then c.2 else Memory.read rest a

/-- A cell in front of the others, unless it holds what an unlisted position reads as. -/
def Memory.list (a : Nat) (v : Byte) (m : Memory) : Memory := if v = unlistedByte then m else (a, v) :: m

/-- One byte written; the canonical form is kept. -/
def Memory.write (m : Memory) (a : Nat) (v : Byte) : Memory :=
  match m with
  | [] => Memory.list a v []
  | c :: rest =>
    if c.1 < a then c :: Memory.write rest a v
    else if c.1 = a then Memory.list a v rest
    else Memory.list a v (c :: rest)

/-- Bytes written at consecutive positions, in ascending order (R10, R42). -/
def Memory.writeAll (m : Memory) (a : Nat) (vals : List Byte) : Memory :=
  match vals with
  | [] => m
  | v :: rest => Memory.writeAll (m.write a v) (a + 1) rest

/-- The canonical form: positions strictly rising, and no cell holding what an unlisted position reads as. -/
abbrev Memory.WF (m : Memory) : Prop :=
  m.Pairwise (fun c d => c.1 < d.1) ∧ ∀ c ∈ m, c.2 ≠ unlistedByte

/-! ## The state primitives of R10 and R120 -/

/-- `B[j]` (R10). -/
def Bank.byte (b : Bank) (j : Nat) : Byte := b.bytes.read j

/-- `B[j] <- v` (R10). -/
def Bank.setByte (b : Bank) (j : Nat) (v : Byte) : Bank := { b with bytes := b.bytes.write j v }

/-- `MemRead(j, n)` (R10). -/
def Bank.memRead (b : Bank) (j n : Nat) : List Byte := (List.range' j n).map b.byte

/-- `MemWrite(j, n, s)`, with `n` the length of `s` (R10). -/
def Bank.memWrite (b : Bank) (j : Nat) (vals : List Byte) : Bank := { b with bytes := b.bytes.writeAll j vals }

/-- A constructed bank of length `len` with every byte zero (R100). -/
def Bank.zeros (len : Nat) : Bank := ⟨true, len, []⟩

/-- A constructed bank that holds exactly these bytes (R101). -/
def Bank.ofBytes (vals : List Byte) : Bank := (Bank.zeros vals.length).memWrite 0 vals

/-- `GetBitAt(i)` (R120). -/
def Bank.bitAt (b : Bank) (i : Nat) : Bit := (b.byte (i >>> 3) >>> (i &&& 7)).setWidth 1

/-- A byte with one of its bits replaced: the masked read-modify-write of `SetBitAt` (R120). -/
def replaceBit (old : Byte) (n : Nat) (v : Bit) : Byte :=
  (old &&& (0xFF &&& ~~~((1 : Byte) <<< n))) ||| (v.setWidth 8 <<< n)

/-- `SetBitAt(i, v)` (R120). -/
def Bank.setBitAt (b : Bank) (i : Nat) (v : Bit) : Bank :=
  b.setByte (i >>> 3) (replaceBit (b.byte (i >>> 3)) (i &&& 7) v)

/-- Bits written one after another in list order, so that the last write to an index stands (R124). -/
def Bank.setBitsAt (b : Bank) (writes : List (Nat × Bit)) : Bank :=
  writes.foldl (fun acc w => acc.setBitAt w.1 w.2) b

/-! ## The checksum and the rotation window -/

/-- `Csum` (R161): the sum of bytes `CSUM_LO` to `CSUM_HI`, modulo 256. -/
def Bank.csum (b : Bank) (csumLo : Nat) : Byte :=
  BitVec.ofNat 8 (((List.range' csumLo (Config.csumHi + 1 - csumLo)).map (fun j => (b.byte j).toNat)).sum % 256)

/-- How far byte `j` of the window is shifted in the 128-bit value (R181). -/
def windowShift (j : Nat) : Nat := 8 * (Config.winHi - j)

/-- `Win` (R181): the window bytes as one 128-bit value, byte 0 most significant. -/
def Bank.window (b : Bank) : Window :=
  ((List.range' Config.winLo (Config.winHi + 1 - Config.winLo)).map
    (fun j => (b.byte j).setWidth 128 <<< windowShift j)).foldl (· ||| ·) 0

/-- `Unpack(w)` (R181): the 128-bit value back into the window bytes. -/
def Bank.unpack (b : Bank) (w : Window) : Bank :=
  b.memWrite Config.winLo
    ((List.range' Config.winLo (Config.winHi + 1 - Config.winLo)).map (fun j => (w >>> windowShift j).setWidth 8))

/-! ## Banks by number -/

/-- `BK < NB` (R77, check 5). -/
def State.hasBank (s : State) (k : BankNo) : Bool := decide (k.toNat < s.cfg.nb)

/-- `bank[k]` (R10). -/
def State.bank (s : State) (k : BankNo) : Bank := s.banks.getD k.toNat Bank.unconstructed

/-- `bank[k] <- b`, every other bank kept (R32). -/
def State.setBank (s : State) (k : BankNo) (b : Bank) : State := { s with banks := s.banks.set k.toNat b }

/-! ## Completing and failing a command -/

/-- The end of a command: its packet leaves the port and its response packet is returned (R3, R75). -/
def State.respond (s : State) (p : Packet) : State := { s with port := s.port.tail, out := s.out ++ [p] }

/-- `return OK(r)` (R11): the results are returned; the writes are those already in `s`. -/
def complete (results : List Word) (s : State) : Host.Outcome State Fault Refusal := .next (s.respond (okPacket results))

/-- `raise <Code>` (R11): taking an error. The response carries the code alone, nothing of the command is written, and the block
is ready for the next packet (R200, R204). The block saves nothing and transfers control nowhere, so there is no return from an
error (R205). -/
def raise (c : Status) (s : State) : Host.Outcome State Fault Refusal := .next (s.respond (errorPacket c))

/-- A command on a constructed bank: the common checks 5 and 7 of R77, then the command's body on the bank; its new bank is
committed with its results, or its status code is raised. -/
def onBank (bk : BankNo) (body : Bank → Except Status (Bank × List Word)) (s : State) : Host.Outcome State Fault Refusal :=
  if s.hasBank bk = false then raise .badBank s
  else if (s.bank bk).valid = false then raise .notConstructed s
  else match body (s.bank bk) with
    | .error c => raise c s
    | .ok (b, results) => complete results (s.setBank bk b)

/-- A command that constructs a bank: the common check 5 of R77, then the command's own check (6 or 8); the new bank replaces the
old one, whatever that was (R100 to R102). -/
def constructBank (bk : BankNo) (made : Except Status Bank) (s : State) : Host.Outcome State Fault Refusal :=
  if s.hasBank bk = false then raise .badBank s
  else match made with
    | .error c => raise c s
    | .ok b => complete [] (s.setBank bk b)

/-- A command body that only reads: the bank is kept and these words are returned (R48). -/
def readOnly (b : Bank) (results : List Word) : Except Status (Bank × List Word) := .ok (b, results)

/-- A command body that only writes: this is the new bank and no word is returned (R75). -/
def writeOnly (b : Bank) : Except Status (Bank × List Word) := .ok (b, [])

/-! ## Packets that are no command, and reset -/

/-- The status code of a packet that the decoder rejects (R66, R68, R69). -/
def rejectStatus : Reject → Status
  | .malformedLength => .malformedLength
  | .illegalOpcode => .illegalOpcode
  | .reservedNonzero => .reservedNonzero

/-- Reset (R230): every bank unconstructed, the configuration unchanged (R231). A packet that was being presented is discarded
with no effect and no response. -/
def State.takeReset (s : State) : State :=
  { s with banks := List.replicate s.cfg.nb Bank.unconstructed, port := s.port.tail }

end Sys2Proof.Machine
end

