-- ==== Sys2Proof/Machine/BitAccess.lean ====
section
/-! DEFINITION. Bit-level access: getBit, setBit, getBits, setBits (42_bit_access.md). -/

namespace Sys2Proof.Machine

/-- getBit (R121). -/
def execGetBit (bk : BankNo) (i : Half) (s : State) : Host.Outcome State Fault Refusal :=
  onBank bk (fun b => afterCheck (bitsCheck b.len [i.toNat]) (readOnly b [bitWord (b.bitAt i.toNat)])) s

/-- setBit (R122). -/
def execSetBit (bk : BankNo) (i : Half) (v : Bit) (s : State) : Host.Outcome State Fault Refusal :=
  onBank bk (fun b => afterCheck (bitsCheck b.len [i.toNat]) (writeOnly (b.setBitAt i.toNat v))) s

/-- getBits (R123): one result word for each index, in request order; every index is checked first. -/
def execGetBits (bk : BankNo) (idx : List Half) (s : State) : Host.Outcome State Fault Refusal :=
  onBank bk (fun b =>
    afterCheck (bitsCheck b.len (idx.map BitVec.toNat))
      (readOnly b (idx.map fun i => bitWord (b.bitAt i.toNat)))) s

/-- setBits (R124): BITS_MISMATCH, then OUT_OF_BOUNDS for any index, then the writes in list order (C2, D27). -/
def execSetBits (bk : BankNo) (idx : List Half) (vals : List Bit) (s : State) : Host.Outcome State Fault Refusal :=
  onBank bk (fun b =>
    if idx.length ≠ vals.length then .error .bitsMismatch
    else afterCheck (bitsCheck b.len (idx.map BitVec.toNat))
      (writeOnly (b.setBitsAt ((idx.map BitVec.toNat).zip vals)))) s

end Sys2Proof.Machine
end

