-- ==== Sys2Proof/Machine/ByteAccess.lean ====
section
/-! DEFINITION. Byte-level access: getByte, setByte, getBytes, setBytes (43_byte_access.md). -/

namespace Sys2Proof.Machine

/-- getByte (R141): checked as the range from `i` to `i` (R140). -/
def execGetByte (bk : BankNo) (i : Half) (s : State) : Host.Outcome State Fault Refusal :=
  onBank bk (fun b => afterCheck (rangeCheck b.len i.toNat i.toNat) (readOnly b [byteWord (b.byte i.toNat)])) s

/-- setByte (R142): checked as the range from `i` to `i` (R140). -/
def execSetByte (bk : BankNo) (i : Half) (v : Byte) (s : State) : Host.Outcome State Fault Refusal :=
  onBank bk (fun b => afterCheck (rangeCheck b.len i.toNat i.toNat) (writeOnly (b.setByte i.toNat v))) s

/-- getBytes (R143): the bytes from `first` to `last`, both included, in ascending order. -/
def execGetBytes (bk : BankNo) (first last : Half) (s : State) : Host.Outcome State Fault Refusal :=
  onBank bk (fun b =>
    afterCheck (rangeCheck b.len first.toNat last.toNat)
      (readOnly b ((b.memRead first.toNat (last.toNat - first.toNat + 1)).map byteWord))) s

/-- setBytes (R144): BYTES_MISMATCH by integer arithmetic, then the range check, then the write. -/
def execSetBytes (bk : BankNo) (first last : Half) (vals : List Byte) (s : State) : Host.Outcome State Fault Refusal :=
  onBank bk (fun b =>
    if (vals.length : Int) ≠ (last.toNat : Int) - (first.toNat : Int) + 1 then .error .bytesMismatch
    else afterCheck (rangeCheck b.len first.toNat last.toNat) (writeOnly (b.memWrite first.toNat vals))) s

end Sys2Proof.Machine
end

