-- ==== Sys2Proof/Machine/Checksum.lean ====
section
/-! DEFINITION. The checksum validator and fixer: validateChecksum, fixChecksum (44_checksum.md). -/

namespace Sys2Proof.Machine

/-- validateChecksum (R162): OUT_OF_BOUNDS on a bank without a checksum byte (R160), CHECKSUM when it is not the computed one. -/
def execValidateChecksum (bk : BankNo) (s : State) : Host.Outcome State Fault Refusal :=
  onBank bk (fun b =>
    afterCheck (positionCheck b.len Config.csumPos)
      (if b.byte Config.csumPos ≠ b.csum s.cfg.csumLo then .error .checksum else readOnly b [])) s

/-- fixChecksum (R163): the checksum byte becomes the computed checksum. -/
def execFixChecksum (bk : BankNo) (s : State) : Host.Outcome State Fault Refusal :=
  onBank bk (fun b =>
    afterCheck (positionCheck b.len Config.csumPos)
      (writeOnly (b.setByte Config.csumPos (b.csum s.cfg.csumLo)))) s

end Sys2Proof.Machine
end

