-- ==== Sys2Proof/Machine/Construction.lean ====
section
/-! DEFINITION. Construction, copy and length: newEmptyBuffer, construct, copy, getLength (41_construction.md). -/

namespace Sys2Proof.Machine

/-- newEmptyBuffer (R100): the bank becomes `EMPTY_LEN` zero bytes, whatever it was. -/
def execNewEmptyBuffer (bk : BankNo) (s : State) : Host.Outcome State Fault Refusal :=
  constructBank bk (.ok (Bank.zeros Config.emptyLen)) s

/-- construct (R101): the bank becomes the payload bytes; CAPACITY when there are more than `CAP` (common check 8 of R77). The
values are copied in, no storage is adopted (R103). -/
def execConstruct (bk : BankNo) (vals : List Byte) (s : State) : Host.Outcome State Fault Refusal :=
  constructBank bk (if s.cfg.cap < vals.length then .error .capacity else .ok (Bank.ofBytes vals)) s

/-- copy (R102): the bank becomes an independent copy of bank `src`; COPY_SOURCE when `src` names no constructed bank (common
check 6 of R77). -/
def execCopy (bk src : BankNo) (s : State) : Host.Outcome State Fault Refusal :=
  constructBank bk
    (if s.hasBank src = false ∨ (s.bank src).valid = false then .error .copySource
     else .ok ⟨true, (s.bank src).len, (s.bank src).bytes⟩) s

/-- getLength (R104): `LEN`, zero-extended to a result word. -/
def execGetLength (bk : BankNo) (s : State) : Host.Outcome State Fault Refusal :=
  onBank bk (fun b => readOnly b [BitVec.ofNat 32 b.len]) s

end Sys2Proof.Machine
end

