-- ==== Sys2Proof/Machine/Rotation.lean ====
section
/-! DEFINITION. The circular-rotation engine: rotateLeft, rotateRight (45_rotation.md). -/

namespace Sys2Proof.Machine

/-- The window rotated left by one bit: its top bit becomes its bottom bit (R182). -/
def rotatedLeft (w : Window) : Window := (w <<< 1) ||| (w >>> 127)

/-- The window rotated right by one bit: its bottom bit becomes its top bit (R183). -/
def rotatedRight (w : Window) : Window := (w >>> 1) ||| ((w &&& 1) <<< 127)

/-- rotateLeft (R182): OUT_OF_BOUNDS on a bank without a counter byte (R180); the counter goes up by one, modulo 256 (R187). -/
def execRotateLeft (bk : BankNo) (s : State) : Host.Outcome State Fault Refusal :=
  onBank bk (fun b =>
    afterCheck (positionCheck b.len Config.ctrPos)
      (writeOnly ((b.unpack (rotatedLeft b.window)).setByte Config.ctrPos (b.byte Config.ctrPos + 1)))) s

/-- rotateRight (R183): OUT_OF_BOUNDS on a bank without a counter byte (R180); the counter goes down by one, modulo 256 (R187). -/
def execRotateRight (bk : BankNo) (s : State) : Host.Outcome State Fault Refusal :=
  onBank bk (fun b =>
    afterCheck (positionCheck b.len Config.ctrPos)
      (writeOnly ((b.unpack (rotatedRight b.window)).setByte Config.ctrPos (b.byte Config.ctrPos + 255)))) s

end Sys2Proof.Machine
end

