-- ==== Sys2Proof/Machine/Dispatch.lean ====
section
/-! DEFINITION. One arm per command: its meaning. -/

namespace Sys2Proof.Machine

-- The meaning of each command of R67, on the packet at the head of the command port.
def exec (i : Instr) (s : State) : Host.Outcome State Fault Refusal :=
  match i with
  | .newEmptyBuffer bk => Sys2Proof.Machine.execNewEmptyBuffer bk s
  | .construct bk vals => Sys2Proof.Machine.execConstruct bk vals s
  | .copy bk src => Sys2Proof.Machine.execCopy bk src s
  | .getLength bk => Sys2Proof.Machine.execGetLength bk s
  | .getBit bk n => Sys2Proof.Machine.execGetBit bk n s
  | .setBit bk n v => Sys2Proof.Machine.execSetBit bk n v s
  | .getBits bk idx => Sys2Proof.Machine.execGetBits bk idx s
  | .setBits bk idx vals => Sys2Proof.Machine.execSetBits bk idx vals s
  | .getByte bk n => Sys2Proof.Machine.execGetByte bk n s
  | .setByte bk n v => Sys2Proof.Machine.execSetByte bk n v s
  | .getBytes bk first last => Sys2Proof.Machine.execGetBytes bk first last s
  | .setBytes bk first last vals => Sys2Proof.Machine.execSetBytes bk first last vals s
  | .validateChecksum bk => Sys2Proof.Machine.execValidateChecksum bk s
  | .fixChecksum bk => Sys2Proof.Machine.execFixChecksum bk s
  | .rotateLeft bk => Sys2Proof.Machine.execRotateLeft bk s
  | .rotateRight bk => Sys2Proof.Machine.execRotateRight bk s

end Sys2Proof.Machine
end

