-- ==== Sys2Proof/Machine/Step.lean ====
section
/-! DEFINITION. One step of the block (R3, R20), and the words of the opcode table placed where a step takes its packet. -/

namespace Sys2Proof.Machine

/-- One step: the next input of the port is taken to completion (R3, R44). A packet the decoder accepts runs its command; a packet it
rejects gets its status code (R71); reset is taken between packets (R230). With nothing presented the block is idle and holds
its state (R211). -/
def step (s : State) : Host.Outcome State Fault Refusal :=
  match s.port with
  | [] => .next s
  | .reset _ :: _ => .next s.takeReset
  | .packet p :: _ =>
    match decode p with
    | .accept i => exec i s
    | .reject e => raise (rejectStatus e) s

/-- `s` with the packet of a table row presented next. -/
def State.withFetchWord (s : State) (nbits w : Nat) : State := { s with port := .packet (tablePacket nbits w) :: s.port }

end Sys2Proof.Machine
end

