-- ==== Sys2Proof/Machine/Assembler.lean ====
section
/-! DEFINITION. The assembler of R80 and the pseudo-instructions of R81: from a line of text to the commands it stands for. It is
the host's side of the port; the block sees only the packets. -/

namespace Sys2Proof.Machine

/-! ## Pseudo-instructions -/

/-- The pseudo-instructions of R81. -/
inductive Pseudo where
  | clearBit (bk : BankNo) (i : Half)
  | rotateLeftN (bk : BankNo) (n : Nat)
  | rotateRightN (bk : BankNo) (n : Nat)
  deriving DecidableEq, Repr

/-- The commands a pseudo-instruction stands for (R81). -/
def Pseudo.expand : Pseudo → List Instr
  | .clearBit bk i => [.setBit bk i 0]
  | .rotateLeftN bk n => List.replicate n (.rotateLeft bk)
  | .rotateRightN bk n => List.replicate n (.rotateRight bk)

/-! ## Lines into tokens -/

/-- A token of an assembly line. -/
inductive Token where
  /-- A mnemonic, a bank, a number or a bit value. -/
  | text (cs : List Char)
  | comma
  | opened
  | closed
  deriving DecidableEq, Repr

/-- The token gathered so far, in front of the ones that follow. -/
def flushText (cur : List Char) (rest : List Token) : List Token := if cur = [] then rest else .text cur :: rest

/-- The tokens of a line, up to a comment (R80). -/
def tokens (cur : List Char) : List Char → List Token
  | [] => flushText cur []
  | c :: cs =>
    if c = ';' then flushText cur []
    else if c = ' ' ∨ c = '\t' ∨ c = '\r' then flushText cur (tokens [] cs)
    else if c = ',' then flushText cur (.comma :: tokens [] cs)
    else if c = '[' then flushText cur (.opened :: tokens [] cs)
    else if c = ']' then flushText cur (.closed :: tokens [] cs)
    else tokens (cur ++ [c]) cs

/-- An operand: one piece of text, or a list of pieces. -/
inductive Arg where
  | one (cs : List Char)
  | many (css : List (List Char))
  deriving DecidableEq, Repr

/-- Where in an operand list the reader stands. -/
inductive ArgMode where
  /-- An operand must follow. -/
  | before
  /-- A comma or the end of the line must follow. -/
  | after
  /-- Just inside an opened list. -/
  | listStart
  /-- Inside a list, an element must follow. -/
  | listBefore (acc : List (List Char))
  /-- Inside a list, a comma or the closing bracket must follow. -/
  | listAfter (acc : List (List Char))
  deriving DecidableEq, Repr

/-- The operands of a line: separated by commas, lists in brackets and possibly empty (R80). -/
def readArgs : ArgMode → List Token → Option (List Arg)
  | .after, [] => some []
  | .before, .text w :: ts => (readArgs .after ts).map (Arg.one w :: ·)
  | .before, .opened :: ts => readArgs .listStart ts
  | .after, .comma :: ts => readArgs .before ts
  | .listStart, .closed :: ts => (readArgs .after ts).map (Arg.many [] :: ·)
  | .listStart, .text w :: ts => readArgs (.listAfter [w]) ts
  | .listBefore acc, .text w :: ts => readArgs (.listAfter (acc ++ [w])) ts
  | .listAfter acc, .comma :: ts => readArgs (.listBefore acc) ts
  | .listAfter acc, .closed :: ts => (readArgs .after ts).map (Arg.many acc :: ·)
  | _, _ => none

/-! ## Operands -/

/-- The value of a digit in a base up to 16. -/
def digitValue (base : Nat) (c : Char) : Option Nat :=
  let n := c.toNat
  let v := if 48 ≤ n ∧ n ≤ 57 then n - 48 else if 65 ≤ n ∧ n ≤ 70 then n - 55 else if 97 ≤ n ∧ n ≤ 102 then n - 87 else 16
  if v < base then some v else none

/-- The value of a run of digits that follows the value read so far. -/
def digitsValue (base acc : Nat) : List Char → Option Nat
  | [] => some acc
  | c :: cs => (digitValue base c).bind fun v => digitsValue base (acc * base + v) cs

/-- A number, decimal or `0x` hexadecimal (R80). -/
def readNumber : List Char → Option Nat
  | '0' :: 'x' :: c :: cs => digitsValue 16 0 (c :: cs)
  | c :: cs => digitsValue 10 0 (c :: cs)
  | [] => none

/-- A number that fits a field of `w` bits; an operand that does not fit is refused (R80). -/
def readField (w : Nat) (cs : List Char) : Option (BitVec w) :=
  (readNumber cs).bind fun n => if n < 2 ^ w then some (BitVec.ofNat w n) else none

/-- The sixteen spellings of a bank, `b0` to `b15` (R80). -/
def bankNames : List (List Char) :=
  ["b0".toList, "b1".toList, "b2".toList, "b3".toList, "b4".toList, "b5".toList, "b6".toList, "b7".toList,
   "b8".toList, "b9".toList, "b10".toList, "b11".toList, "b12".toList, "b13".toList, "b14".toList, "b15".toList]

/-- A bank (R80). -/
def readBank (cs : List Char) : Option BankNo := (bankNames.idxOf? cs).map (BitVec.ofNat 4)

/-- A bit value: one of the four spellings (R80). -/
def readBit (cs : List Char) : Option Bit :=
  if cs = "0".toList ∨ cs = "false".toList then some 0
  else if cs = "1".toList ∨ cs = "true".toList then some 1
  else none

/-! ## Lines into commands -/

/-- The mnemonics of R80 and R81. -/
inductive Mnemonic where
  | real (o : Opcode)
  | clearBit
  | rotateLeftN
  | rotateRightN
  deriving DecidableEq, Repr

/-- How each mnemonic is written (R67, R81). -/
def mnemonicMap : List (List Char × Mnemonic) :=
  [("newEmptyBuffer".toList, .real .newEmptyBuffer), ("construct".toList, .real .construct), ("copy".toList, .real .copy),
   ("getLength".toList, .real .getLength), ("getBit".toList, .real .getBit), ("setBit".toList, .real .setBit),
   ("getBits".toList, .real .getBits), ("setBits".toList, .real .setBits), ("getByte".toList, .real .getByte),
   ("setByte".toList, .real .setByte), ("getBytes".toList, .real .getBytes), ("setBytes".toList, .real .setBytes),
   ("validateChecksum".toList, .real .validateChecksum), ("fixChecksum".toList, .real .fixChecksum),
   ("rotateLeft".toList, .real .rotateLeft), ("rotateRight".toList, .real .rotateRight),
   ("clearBit".toList, .clearBit), ("rotateLeftN".toList, .rotateLeftN), ("rotateRightN".toList, .rotateRightN)]

/-- The commands of one mnemonic with its operands, in the forms of R80 and R81; none where the form is another one or an operand
is refused. -/
def readCommand (m : Mnemonic) (bk : BankNo) (args : List Arg) : Option (List Instr) :=
  match m, args with
  | .real .newEmptyBuffer, [] => some [.newEmptyBuffer bk]
  | .real .construct, [.many vs] => (vs.mapM (readField 8)).map fun vals => [.construct bk vals]
  | .real .copy, [.one s] => (readBank s).map fun src => [.copy bk src]
  | .real .getLength, [] => some [.getLength bk]
  | .real .getBit, [.one n] => (readField 16 n).map fun i => [.getBit bk i]
  | .real .setBit, [.one n, .one v] => (readField 16 n).bind fun i => (readBit v).map fun b => [.setBit bk i b]
  | .real .getBits, [.many ns] => (ns.mapM (readField 16)).map fun idx => [.getBits bk idx]
  | .real .setBits, [.many ns, .many vs] =>
      (ns.mapM (readField 16)).bind fun idx => (vs.mapM readBit).map fun vals => [.setBits bk idx vals]
  | .real .getByte, [.one n] => (readField 16 n).map fun i => [.getByte bk i]
  | .real .setByte, [.one n, .one v] => (readField 16 n).bind fun i => (readField 8 v).map fun b => [.setByte bk i b]
  | .real .getBytes, [.one s, .one e] =>
      (readField 16 s).bind fun first => (readField 16 e).map fun last => [.getBytes bk first last]
  | .real .setBytes, [.one s, .one e, .many vs] =>
      (readField 16 s).bind fun first => (readField 16 e).bind fun last =>
        (vs.mapM (readField 8)).map fun vals => [.setBytes bk first last vals]
  | .real .validateChecksum, [] => some [.validateChecksum bk]
  | .real .fixChecksum, [] => some [.fixChecksum bk]
  | .real .rotateLeft, [] => some [.rotateLeft bk]
  | .real .rotateRight, [] => some [.rotateRight bk]
  | .clearBit, [.one n] => (readField 16 n).map fun i => (Pseudo.clearBit bk i).expand
  | .rotateLeftN, [.one n] => (readNumber n).map fun k => (Pseudo.rotateLeftN bk k).expand
  | .rotateRightN, [.one n] => (readNumber n).map fun k => (Pseudo.rotateRightN bk k).expand
  | _, _ => none

/-- Only commands that a packet can carry: a count that does not fit its field is refused (R80). -/
def encodable (is : List Instr) : Option (List Instr) := if is.all Instr.wellFormed then some is else none

/-- One line: a mnemonic, a bank, then the other operands, separated by commas; a line without a mnemonic stands for no
command (R80). -/
def assembleLine (line : List Char) : Option (List Instr) :=
  match tokens [] line with
  | [] => some []
  | .text m :: ts =>
    match mnemonicMap.lookup m, readArgs .before ts with
    | some mn, some (.one b :: args) => (readBank b).bind fun bk => (readCommand mn bk args).bind encodable
    | _, _ => none
  | _ => none

/-- The commands of a text, one command per line (R80). R80 and D24 speak of a refused line only; that one refused line refuses the
whole text, so that none of its commands is presented, is the model's own: DESIGN CHOICE (log entry 9), safe. -/
def assembleLines : List (List Char) → Option (List Instr)
  | [] => some []
  | l :: ls => (assembleLine l).bind fun is => (assembleLines ls).map (is ++ ·)

end Sys2Proof.Machine
end

