-- ==== Sys2Proof/Safety.lean ====
section
/-! DEFINITION. The words that claims about the block are stated in: the invariant of every reachable state, what it is for a command
to return, commit or fail, and the spec's own formulas for a bit, the checksum, the window and the reserved bits, written
apart from the operations of the machine. -/

namespace Sys2Proof.Machine

/-! ## The invariant -/

/-- A bank that fits: `LEN` at most `CAP` (R22), its bytes in canonical form, and no byte listed at or beyond `LEN` (R31). -/
abbrev Bank.WF (cap : Nat) (b : Bank) : Prop :=
  b.len ≤ cap ∧ b.bytes.WF ∧ ∀ c ∈ b.bytes, c.1 < b.len

/-- The invariant: legal parameters (R6), exactly `NB` banks (R21), and every bank fits (R22). -/
abbrev State.WF (s : State) : Prop :=
  s.cfg.Legal ∧ s.banks.length = s.cfg.nb ∧ ∀ b ∈ s.banks, b.WF s.cfg.cap

/-- Bank `bk` exists and is constructed, in a state that meets the invariant (the common checks 5 and 7 of R77 pass). -/
abbrev Ready (s : State) (bk : BankNo) : Prop :=
  s.WF ∧ bk.toNat < s.cfg.nb ∧ (s.bank bk).valid = true

/-! ## The spec's formulas -/

/-- Bit index `n` of a bank: bit `n % 8` of byte `n / 8` (R41). -/
def Bank.bitSet (b : Bank) (n : Nat) : Bool := (b.byte (n / 8)).getLsbD (n % 8)

/-- A result word that holds one bit (R75). -/
def boolWord (v : Bool) : Word := if v then 1 else 0

/-- The checksum as a number: the sum of bytes `lo` to 16 modulo 256 (R161). -/
def Bank.checksumValue (b : Bank) (lo : Nat) : Nat := (∑ j ∈ Finset.Icc lo 16, (b.byte j).toNat) % 256

/-- The window as a number: byte 0 most significant, byte 15 least (R181). -/
def Bank.windowValue (b : Bank) : Nat := ∑ j ∈ Finset.range 16, (b.byte j).toNat * 256 ^ (15 - j)

/-- The value that the last write to index `n` in a list of writes gives it; the old value where no write names it (R124). -/
def lastWrite (writes : List (Nat × Bit)) (n : Nat) (old : Bool) : Bool :=
  match writes.reverse.lookup n with
  | some v => v == 1
  | none => old

end Sys2Proof.Machine

namespace Sys2Proof

/-- The reserved bits of a header: every 0 outside `OP` in the encoding column of the opcode table (R61, R65). -/
def Opcode.reservedHeader : Opcode → Word
  | .newEmptyBuffer => 0x000FFFFF
  | .construct => 0x000F0000
  | .copy => 0x0000FFFF
  | .getLength => 0x000FFFFF
  | .getBit => 0x000F0000
  | .setBit => 0x000E0000
  | .getBits => 0x000F0000
  | .setBits => 0x000F0000
  | .getByte => 0x000F0000
  | .setByte => 0x000F0000
  | .getBytes => 0x000F0000
  | .setBytes => 0x000F0000
  | .validateChecksum => 0x000FFFFF
  | .fixChecksum => 0x000FFFFF
  | .rotateLeft => 0x000FFFFF
  | .rotateRight => 0x000FFFFF

/-- The reserved bits of word `k` of a packet whose header says `A = a` (R61 to R65). -/
def Opcode.reservedBits (o : Opcode) (a k : Nat) : Word :=
  match o, k with
  | o, 0 => Opcode.reservedHeader o
  | .construct, _ => 0xFFFFFF00
  | .getBits, _ => 0xFFFF0000
  | .setBits, 1 => 0x0000FFFF
  | .setBits, k => if k < 2 + a then 0xFFFF0000 else 0xFFFFFFFE
  | .setByte, _ => 0xFFFFFF00
  | .getBytes, _ => 0xFFFF0000
  | .setBytes, 1 => 0x00000000
  | .setBytes, _ => 0xFFFFFF00
  | _, _ => 0x00000000

/-- The declared length of a packet, in words, as the column "packet length" of R65 gives it for `A = a` and `WB = wb`. -/
def Opcode.packetWords (o : Opcode) (a wb : Nat) : Nat :=
  match o with
  | .newEmptyBuffer | .copy | .getLength | .getBit | .setBit | .getByte | .validateChecksum | .fixChecksum
  | .rotateLeft | .rotateRight => 1
  | .construct | .getBits => 1 + a
  | .setBits => 2 + a + wb
  | .setByte | .getBytes => 2
  | .setBytes => 2 + wb

/-- The declared length of the packet with this header and these further words (R65, R66). -/
def Opcode.wordsOf (o : Opcode) (h : Word) (rest : Packet) : Nat :=
  o.packetWords (fieldA h).toNat (fieldWb (rest.headD 0)).toNat

/-- Some reserved bit of the packet with this header and these further words is one (R69). -/
def Opcode.ReservedBitSet (o : Opcode) (h : Word) (rest : Packet) : Prop :=
  ∃ k w, (h :: rest)[k]? = some w ∧ w &&& o.reservedBits (fieldA h).toNat k ≠ 0

/-- A header word from the numbers in its fields (R61). -/
def headerOf (op bk aux a : Nat) : Word := BitVec.ofNat 32 (op * 2 ^ 24 + bk * 2 ^ 20 + aux * 2 ^ 16 + a)

/-- An operand word from the numbers in its fields (R62). -/
def operandOf (wb wc : Nat) : Word := BitVec.ofNat 32 (wb * 2 ^ 16 + wc)

end Sys2Proof

namespace Sys2Proof.Machine

/-! ## How a command ends -/

/-- The next state of a command that leaves the banks as `banks` and returns the response packet `p`: the packet at the head of the
port is consumed, and nothing else of the state differs. -/
def State.answered (s : State) (banks : List Bank) (p : Packet) : State := ⟨s.cfg, banks, s.port.tail, s.out ++ [p]⟩

/-- The command fails with the status code of this number (R76): its response is the status word alone, with `RN = 0`, and every
bank is as before (R11, R75). -/
def Fails (i : Instr) (s : State) (code : Nat) : Prop := exec i s = .next (s.answered s.banks [BitVec.ofNat 32 code])

/-- A step fails with the status code of this number: the packet presented next is answered so, and every bank is as before. -/
def StepFails (s : State) (code : Nat) : Prop := step s = .next (s.answered s.banks [BitVec.ofNat 32 code])

/-- The command completes with these result words and changes no bank (R48, R75). -/
def Returns (i : Instr) (s : State) (results : List Word) : Prop :=
  exec i s = .next (s.answered s.banks (BitVec.ofNat 32 (results.length * 65536) :: results))

/-- The command completes with no result word; it leaves its own bank as `P` says and every other bank as it was, and nothing else
of the state differs (R11, R32, R75). -/
def Commits (i : Instr) (s : State) (P : Bank → Prop) : Prop :=
  ∃ t, exec i s = .next t ∧ t = s.answered t.banks [0] ∧ t.banks.length = s.banks.length ∧
    (∀ k, k ≠ i.bank → t.bank k = s.bank k) ∧ P (t.bank i.bank)

/-- A constructed bank of length `len` whose byte at every position is `content` of it. -/
def Bank.Holds (len : Nat) (content : Nat → Byte) (b : Bank) : Prop :=
  b.valid = true ∧ b.len = len ∧ ∀ j, b.byte j = content j

/-- `n` copies of a command, one after another (R81, R185). -/
def repeatExec (n : Nat) (i : Instr) (s : State) : Host.Outcome State Fault Refusal :=
  match n with
  | 0 => .next s
  | n + 1 =>
    match exec i s with
    | .next t => repeatExec n i t
    | r => r

end Sys2Proof.Machine

namespace Sys2Proof

/-! ## Groups of commands -/

/-- The commands that construct their bank (R23). -/
def Instr.constructs : Instr → Bool
  | .newEmptyBuffer _ | .construct _ _ | .copy _ _ => true
  | .getLength _ | .getBit _ _ | .setBit _ _ _ | .getBits _ _ | .setBits _ _ _ | .getByte _ _ | .setByte _ _ _
  | .getBytes _ _ _ | .setBytes _ _ _ _ | .validateChecksum _ | .fixChecksum _ | .rotateLeft _ | .rotateRight _ => false

/-- The commands that only read (R48). -/
def Instr.reads : Instr → Bool
  | .getLength _ | .getBit _ _ | .getBits _ _ | .getByte _ _ | .getBytes _ _ _ | .validateChecksum _ => true
  | .newEmptyBuffer _ | .construct _ _ | .copy _ _ | .setBit _ _ _ | .setBits _ _ _ | .setByte _ _ _
  | .setBytes _ _ _ _ | .fixChecksum _ | .rotateLeft _ | .rotateRight _ => false

/-- How many result words a completed command returns (R75). -/
def Instr.resultCount : Instr → Nat
  | .getLength _ | .getBit _ _ | .getByte _ _ => 1
  | .getBits _ idx => idx.length
  | .getBytes _ first last => last.toNat - first.toNat + 1
  | .newEmptyBuffer _ | .construct _ _ | .copy _ _ | .setBit _ _ _ | .setBits _ _ _ | .setByte _ _ _
  | .setBytes _ _ _ _ | .validateChecksum _ | .fixChecksum _ | .rotateLeft _ | .rotateRight _ => 0

/-- How many bits of a result word of the command can be one: a bit, a byte or a length (R75). -/
def Instr.resultWidth : Instr → Nat
  | .getBit _ _ | .getBits _ _ => 1
  | .getByte _ _ | .getBytes _ _ _ => 8
  | .newEmptyBuffer _ | .construct _ _ | .copy _ _ | .getLength _ | .setBit _ _ _ | .setBits _ _ _ | .setByte _ _ _
  | .setBytes _ _ _ _ | .validateChecksum _ | .fixChecksum _ | .rotateLeft _ | .rotateRight _ => 16

/-- The command is a copy, the one command that reads a second bank (R102). -/
def Instr.copies : Instr → Bool
  | .copy _ _ => true
  | .newEmptyBuffer _ | .construct _ _ | .getLength _ | .getBit _ _ | .setBit _ _ _ | .getBits _ _ | .setBits _ _ _
  | .getByte _ _ | .setByte _ _ _ | .getBytes _ _ _ | .setBytes _ _ _ _ | .validateChecksum _ | .fixChecksum _
  | .rotateLeft _ | .rotateRight _ => false

end Sys2Proof

namespace Sys2Proof.Machine

/-! ## What an observer can tell apart -/

/-- Two states that differ at most in `LEN` and the bytes of unconstructed banks (R35, R232). -/
def SameVisible (s t : State) : Prop :=
  s.cfg = t.cfg ∧ s.port = t.port ∧ s.out = t.out ∧ s.banks.length = t.banks.length ∧
    ∀ k, (s.bank k).valid = (t.bank k).valid ∧ ((s.bank k).valid = true → s.bank k = t.bank k)

/-- Packets presented to the block in order, after whatever is presented already (R3, R237). -/
def State.present (s : State) (ps : List Packet) : State := { s with port := s.port ++ ps.map Input.packet }

end Sys2Proof.Machine

namespace Sys2Proof.Machine

/-! ## Lines of assembly (R80, R81), as text and as what they stand for -/

/-- The decimal digits, each with its value. -/
def decimalDigits : List (Char × Nat) :=
  [('0', 0), ('1', 1), ('2', 2), ('3', 3), ('4', 4), ('5', 5), ('6', 6), ('7', 7), ('8', 8), ('9', 9)]

/-- The hexadecimal digits above 9, each with its value; either case is the model's choice (log entry 9). -/
def hexLetters : List (Char × Nat) :=
  [('A', 10), ('B', 11), ('C', 12), ('D', 13), ('E', 14), ('F', 15),
   ('a', 10), ('b', 11), ('c', 12), ('d', 13), ('e', 14), ('f', 15)]

/-- A number as it is written: decimal, or `0x` hexadecimal (R80); its digits, each with its value, the most significant first. -/
structure Numeral where
  hex : Bool
  digits : List (Char × Nat)
  deriving DecidableEq, Repr

/-- The numeral has at least one digit, and only digits of its base with their own values. -/
def Numeral.Written (n : Numeral) : Prop :=
  n.digits ≠ [] ∧ ∀ d ∈ n.digits, d ∈ decimalDigits ++ if n.hex then hexLetters else []

/-- The text of a numeral. -/
def Numeral.text (n : Numeral) : List Char := (if n.hex then ['0', 'x'] else []) ++ n.digits.map Prod.fst

/-- The value of a numeral, by place value. -/
def Numeral.value (n : Numeral) : Nat := Nat.ofDigits (if n.hex then 16 else 10) (n.digits.reverse.map Prod.snd)

/-- The text of bank number `k`: `b` and the number in decimal (R80). -/
def bankText (k : Nat) : List Char := 'b' :: Nat.toDigits 10 k

/-- The four spellings of a bit value (R80). -/
def bitSpellings : List (List Char × Bit) :=
  [("0".toList, 0), ("1".toList, 1), ("false".toList, 0), ("true".toList, 1)]

/-- A word of a line: not empty, and without a separator, a bracket or a comment sign. -/
def IsWord (w : List Char) : Prop := w ≠ [] ∧ ∀ c ∈ w, c ∉ [' ', '\t', '\r', ',', '[', ']', ';']

/-- Texts separated by a comma and a blank. -/
def commaText (ts : List (List Char)) : List Char := List.intercalate [',', ' '] ts

/-- A list in brackets, possibly empty (R80). -/
def listText (ts : List (List Char)) : List Char := '[' :: (commaText ts ++ [']'])

/-- A line in one of the forms of R80 and R81, with operands that need not fit their fields: a bank by its number, numbers as
numerals, and bit values as any words. -/
inductive Line where
  | newEmptyBuffer (k : Nat)
  | construct (k : Nat) (vs : List Numeral)
  | copy (k s : Nat)
  | getLength (k : Nat)
  | getBit (k : Nat) (i : Numeral)
  | setBit (k : Nat) (i : Numeral) (v : List Char)
  | getBits (k : Nat) (is : List Numeral)
  | setBits (k : Nat) (is : List Numeral) (vs : List (List Char))
  | getByte (k : Nat) (i : Numeral)
  | setByte (k : Nat) (i v : Numeral)
  | getBytes (k : Nat) (s e : Numeral)
  | setBytes (k : Nat) (s e : Numeral) (vs : List Numeral)
  | validateChecksum (k : Nat)
  | fixChecksum (k : Nat)
  | rotateLeft (k : Nat)
  | rotateRight (k : Nat)
  | clearBit (k : Nat) (i : Numeral)
  | rotateLeftN (k : Nat) (n : Numeral)
  | rotateRightN (k : Nat) (n : Numeral)
  deriving DecidableEq, Repr

/-- Every numeral and every word of the line is written as one. -/
def Line.Written : Line → Prop
  | .newEmptyBuffer _ | .copy _ _ | .getLength _ | .validateChecksum _ | .fixChecksum _ | .rotateLeft _
  | .rotateRight _ => True
  | .construct _ ns | .getBits _ ns => ∀ n ∈ ns, n.Written
  | .getBit _ n | .getByte _ n | .clearBit _ n | .rotateLeftN _ n | .rotateRightN _ n => n.Written
  | .setBit _ n v => n.Written ∧ IsWord v
  | .setBits _ ns vs => (∀ n ∈ ns, n.Written) ∧ ∀ v ∈ vs, IsWord v
  | .setByte _ n m | .getBytes _ n m => n.Written ∧ m.Written
  | .setBytes _ n m ns => n.Written ∧ m.Written ∧ ∀ n ∈ ns, n.Written

/-- A mnemonic, a blank, the bank, and the other operands. -/
def lineText (mnemonic : String) (k : Nat) (operands : List (List Char)) : List Char :=
  mnemonic.toList ++ ' ' :: commaText (bankText k :: operands)

/-- The text of a line, as the column "syntax" of R80 and the pseudo-instructions of R81 write it. -/
def Line.text : Line → List Char
  | .newEmptyBuffer k => lineText "newEmptyBuffer" k []
  | .construct k vs => lineText "construct" k [listText (vs.map Numeral.text)]
  | .copy k s => lineText "copy" k [bankText s]
  | .getLength k => lineText "getLength" k []
  | .getBit k i => lineText "getBit" k [i.text]
  | .setBit k i v => lineText "setBit" k [i.text, v]
  | .getBits k is => lineText "getBits" k [listText (is.map Numeral.text)]
  | .setBits k is vs => lineText "setBits" k [listText (is.map Numeral.text), listText vs]
  | .getByte k i => lineText "getByte" k [i.text]
  | .setByte k i v => lineText "setByte" k [i.text, v.text]
  | .getBytes k s e => lineText "getBytes" k [s.text, e.text]
  | .setBytes k s e vs => lineText "setBytes" k [s.text, e.text, listText (vs.map Numeral.text)]
  | .validateChecksum k => lineText "validateChecksum" k []
  | .fixChecksum k => lineText "fixChecksum" k []
  | .rotateLeft k => lineText "rotateLeft" k []
  | .rotateRight k => lineText "rotateRight" k []
  | .clearBit k i => lineText "clearBit" k [i.text]
  | .rotateLeftN k n => lineText "rotateLeftN" k [n.text]
  | .rotateRightN k n => lineText "rotateRightN" k [n.text]

/-- A field that holds the number a numeral writes. -/
def Fits {w : Nat} (n : Numeral) (v : BitVec w) : Prop := v.toNat = n.value

/-- A list of fields that holds a list of numerals, short enough for a count field of 16 bits. -/
def ListFits {w : Nat} (ns : List Numeral) (vs : List (BitVec w)) : Prop := List.Forall₂ Fits ns vs ∧ vs.length < 65536

/-- The commands a line stands for, as the column "encodes" of R80 and the expansions of R81 give them; no list of commands where an
operand fits no field. -/
def Line.Gives : Line → List Instr → Prop
  | .newEmptyBuffer k, cs => ∃ bk : BankNo, bk.toNat = k ∧ cs = [.newEmptyBuffer bk]
  | .construct k vs, cs => ∃ (bk : BankNo) (vals : List Byte), bk.toNat = k ∧ ListFits vs vals ∧ cs = [.construct bk vals]
  | .copy k s, cs => ∃ bk src : BankNo, bk.toNat = k ∧ src.toNat = s ∧ cs = [.copy bk src]
  | .getLength k, cs => ∃ bk : BankNo, bk.toNat = k ∧ cs = [.getLength bk]
  | .getBit k n, cs => ∃ (bk : BankNo) (i : Half), bk.toNat = k ∧ Fits n i ∧ cs = [.getBit bk i]
  | .setBit k n v, cs => ∃ (bk : BankNo) (i : Half) (b : Bit), bk.toNat = k ∧ Fits n i ∧ (v, b) ∈ bitSpellings ∧
      cs = [.setBit bk i b]
  | .getBits k ns, cs => ∃ (bk : BankNo) (idx : List Half), bk.toNat = k ∧ ListFits ns idx ∧ cs = [.getBits bk idx]
  | .setBits k ns vs, cs => ∃ (bk : BankNo) (idx : List Half) (bits : List Bit), bk.toNat = k ∧ ListFits ns idx ∧
      List.Forall₂ (fun v b => (v, b) ∈ bitSpellings) vs bits ∧ bits.length < 65536 ∧ cs = [.setBits bk idx bits]
  | .getByte k n, cs => ∃ (bk : BankNo) (i : Half), bk.toNat = k ∧ Fits n i ∧ cs = [.getByte bk i]
  | .setByte k n v, cs => ∃ (bk : BankNo) (i : Half) (b : Byte), bk.toNat = k ∧ Fits n i ∧ Fits v b ∧ cs = [.setByte bk i b]
  | .getBytes k s e, cs => ∃ (bk : BankNo) (first last : Half), bk.toNat = k ∧ Fits s first ∧ Fits e last ∧
      cs = [.getBytes bk first last]
  | .setBytes k s e vs, cs => ∃ (bk : BankNo) (first last : Half) (vals : List Byte), bk.toNat = k ∧ Fits s first ∧
      Fits e last ∧ ListFits vs vals ∧ cs = [.setBytes bk first last vals]
  | .validateChecksum k, cs => ∃ bk : BankNo, bk.toNat = k ∧ cs = [.validateChecksum bk]
  | .fixChecksum k, cs => ∃ bk : BankNo, bk.toNat = k ∧ cs = [.fixChecksum bk]
  | .rotateLeft k, cs => ∃ bk : BankNo, bk.toNat = k ∧ cs = [.rotateLeft bk]
  | .rotateRight k, cs => ∃ bk : BankNo, bk.toNat = k ∧ cs = [.rotateRight bk]
  | .clearBit k n, cs => ∃ (bk : BankNo) (i : Half), bk.toNat = k ∧ Fits n i ∧ cs = [.setBit bk i 0]
  | .rotateLeftN k n, cs => ∃ bk : BankNo, bk.toNat = k ∧ cs = List.replicate n.value (.rotateLeft bk)
  | .rotateRightN k n, cs => ∃ bk : BankNo, bk.toNat = k ∧ cs = List.replicate n.value (.rotateRight bk)

end Sys2Proof.Machine
end

