-- ==== Sys2Proof/Certificates/Slice0/Obligations.lean ====
section
/-! DEFINITION. The statements for the provers, in the words of Sys2Proof/Safety.lean. -/

open Sys2Proof Sys2Proof.Machine

/-! ## Encoding -/

/-- Decoding the packet of a well-formed command gives that command, with every operand at every value the encoding admits (R60 to
R65). -/
def Obligations.DecodeOfEncode : Prop := ∀ i : Instr, i.wellFormed = true → decode (encode i) = .accept i

/-- A packet that the decoder accepts is the packet of the command it carries, and of no other: no bit is dropped (R60 to R66, R69). -/
def Obligations.EncodeOfDecode : Prop :=
  ∀ (p : Packet) (i : Instr), decode p = .accept i → i.wellFormed = true ∧ encode i = p

/-- Words written out from the encodings of 30_encoding.md decode to the commands they stand for: one of each family. -/
def Obligations.SpecWordsDecode : Prop :=
  decode [0x03120000] = .accept (.copy 1 2) ∧
  decode [0x02300002, 0x00000012, 0x000000FF] = .accept (.construct 3 [0x12, 0xFF]) ∧
  decode [0x11F1009F] = .accept (.setBit 15 159 1) ∧
  decode [0x13000002, 0x00010000, 0x00000006, 0x00000001, 0x00000001] = .accept (.setBits 0 [6, 1] [1]) ∧
  decode [0x23100001, 0x00020002, 0x000000AA, 0x000000BB] = .accept (.setBytes 1 1 2 [0xAA, 0xBB]) ∧
  decode [0x30200000] = .accept (.validateChecksum 2) ∧
  decode [0x41000000] = .accept (.rotateRight 0)

/-- R68: every unassigned opcode is illegal, whatever the other words of the packet hold, and nothing changes. -/
def Obligations.UnassignedOpcodesAreIllegal : Prop :=
  ∀ (s : State) (h : Word) (rest : Packet) (q : List Input), s.port = .packet (h :: rest) :: q →
    h.toNat / 2 ^ 24 ∉ [0x01, 0x02, 0x03, 0x04, 0x10, 0x11, 0x12, 0x13, 0x20, 0x21, 0x22, 0x23, 0x30, 0x31, 0x40, 0x41] →
    decode (h :: rest) = .reject .illegalOpcode ∧ StepFails s 16

/-- R66: a packet with an assigned opcode is malformed exactly when its number of words is not the declared one; the empty packet is
malformed. -/
def Obligations.DeclaredLengthIsEnforced : Prop :=
  (∀ (s : State) (q : List Input), s.port = .packet [] :: q → StepFails s 21) ∧
  ∀ (h : Word) (rest : Packet) (o : Opcode), opcodeOf (fieldOp h) = some o →
    (decode (h :: rest) = .reject .malformedLength ↔ rest.length + 1 ≠ o.wordsOf h rest) ∧
    ∀ (s : State) (q : List Input), s.port = .packet (h :: rest) :: q → rest.length + 1 ≠ o.wordsOf h rest →
      StepFails s 21

/-- R69: a packet with an assigned opcode and its declared length is refused exactly when some reserved bit of its header, operand
word or payload words is one, and then nothing changes. -/
def Obligations.ReservedBitsAreRefused : Prop :=
  ∀ (h : Word) (rest : Packet) (o : Opcode), opcodeOf (fieldOp h) = some o → rest.length + 1 = o.wordsOf h rest →
    (decode (h :: rest) = .reject .reservedNonzero ↔ o.ReservedBitSet h rest) ∧
    ∀ (s : State) (q : List Input), s.port = .packet (h :: rest) :: q → o.ReservedBitSet h rest → StepFails s 17

/-- R43: on a byte-wide transport each word is sent least-significant byte first, and the packet is recovered. -/
def Obligations.TransportIsLeastSignificantFirst : Prop :=
  ∀ p : Packet, packetOfBytes (packetToBytes p) = some p ∧ (packetToBytes p).length = 4 * p.length ∧
    ∀ (k m : Nat) (w : Word), p[k]? = some w → m < 4 → (packetToBytes p)[4 * k + m]? = some ((w >>> (8 * m)).setWidth 8)

/-! ## Steps, responses and errors -/

/-- A step on an accepted packet is the command it carries, and the step adds nothing around it: the meaning itself consumes the
packet and returns the response. -/
def Obligations.StepRunsTheDecodedCommand : Prop :=
  ∀ (s : State) (p : Packet) (q : List Input) (i : Instr),
    s.port = .packet p :: q → decode p = .accept i → i.wellFormed = true → step s = exec i s

/-- R211: with nothing presented the block is idle and holds its state. -/
def Obligations.IdleHoldsTheState : Prop := ∀ s : State, s.port = [] → step s = .next s

/-- Every step answers a next state: no command blocks, faults or is refused (R44, R53). -/
def Obligations.EveryStepCompletes : Prop := ∀ s : State, ∃ t, step s = .next t

/-- R71, R76: every packet gets exactly one response packet, with one of the codes the block produces; the codes of a host adapter and
the unassigned ones never appear. -/
def Obligations.EveryPacketGetsOneResponse : Prop :=
  ∀ (s : State) (p : Packet) (q : List Input), s.port = .packet p :: q →
    ∃ t w results, step s = .next t ∧ t.port = q ∧ t.out = s.out ++ [w :: results] ∧
      w.toNat % 256 ∈ [0, 4, 5, 7, 8, 9, 10, 16, 17, 18, 19, 20, 21]

/-- R75: the status word of every response holds `RN` in bits 31:16, zero in bits 15:8 and the code in bits 7:0; an error returns no
result word, and a completed command the words its rule returns, each holding a bit, a byte or a length in its low bits. -/
def Obligations.ResponsesHaveTheirFormat : Prop :=
  ∀ (s t : State) (p : Packet) (q : List Input), s.WF → s.port = .packet p :: q → step s = .next t →
    ∃ (w : Word) (results : List Word), t.out = s.out ++ [w :: results] ∧ w.extractLsb' 8 8 = 0 ∧
      (w.extractLsb' 16 16).toNat = results.length ∧ (w.extractLsb' 0 8 ≠ 0 → results = []) ∧
      (w.extractLsb' 0 8 = 0 → ∃ i, decode p = .accept i ∧ results.length = i.resultCount ∧
        ∀ x ∈ results, x.toNat < 2 ^ i.resultWidth)

/-- A packet that is answered with an error leaves the state as if it had never been sent, but for the response (R11, R204). -/
def Obligations.ErrorsLeaveNoTrace : Prop :=
  ∀ (s t : State) (p : Packet) (q : List Input) (w : Word) (results : List Word),
    s.port = .packet p :: q → step s = .next t → t.out = s.out ++ [w :: results] → w.extractLsb' 0 8 ≠ 0 →
    t = s.answered s.banks [w]

/-- R77: the common checks, in their order; the first that fails decides the status code and nothing changes. -/
def Obligations.CommonChecksInOrder : Prop :=
  ∀ (s : State) (p : Packet) (q : List Input), s.port = .packet p :: q →
    (p = [] → StepFails s 21) ∧
    ∀ h rest, p = h :: rest →
      (opcodeOf (fieldOp h) = none → StepFails s 16) ∧
      ∀ o, opcodeOf (fieldOp h) = some o →
        (rest.length + 1 ≠ o.wordsOf h rest → StepFails s 21) ∧
        (rest.length + 1 = o.wordsOf h rest →
          (o.ReservedBitSet h rest → StepFails s 17) ∧
          (¬ o.ReservedBitSet h rest →
            (s.cfg.nb ≤ (fieldBk h).toNat → StepFails s 18) ∧
            ((fieldBk h).toNat < s.cfg.nb →
              (o = .copy → (s.cfg.nb ≤ (fieldAux h).toNat ∨ (s.bank (fieldAux h)).valid = false) → StepFails s 10) ∧
              (o ∉ [.newEmptyBuffer, .construct, .copy] → (s.bank (fieldBk h)).valid = false → StepFails s 19) ∧
              (o = .construct → s.cfg.cap < (fieldA h).toNat → StepFails s 20))))

/-- R26: the outcome of a command is not retained: the responses returned so far have no part in what any later step does. -/
def Obligations.OutcomesAreNotRetained : Prop :=
  ∀ (s t : State) (o : List Packet), step s = .next t →
    ∃ rs, t.out = s.out ++ rs ∧ step { s with out := o } = .next { t with out := o ++ rs }

/-- A program of `n` packets ends after exactly `n` steps, with one response for each (R236). That the block is idle then, and that a
step in that state leaves it as it is (R211), is the model's idle step (log entry 2, a choice of the model). -/
def Obligations.PacketsEndAfterAsManySteps : Prop :=
  ∀ (s : State) (ps : List Packet), s.port = [] →
    ∃ t rs, Host.Core.run Sys2Proof.core ps.length (s.present ps) = .next t ∧ t.port = [] ∧ t.cfg = s.cfg ∧
      rs.length = ps.length ∧ t.out = s.out ++ rs ∧ step t = .next t

/-! ## Reset and the whole state -/

/-- The state after reset meets the invariant, for all legal parameters, the defaults of R6 among them. -/
def Obligations.ResetMeetsTheInvariant : Prop :=
  (∀ c : Config, c.Legal → (State.resetOf c).WF) ∧ State.reset.WF ∧ State.reset.cfg = ⟨2, 20, 6⟩

/-- Every step keeps the invariant, from every state that meets it: legal parameters, `NB` banks, every length at most `CAP`, and the
bytes of every bank in canonical form with none listed at or beyond its length (R21, R22, R31). -/
def Obligations.EveryStepKeepsTheInvariant : Prop := ∀ s t : State, s.WF → step s = .next t → t.WF

/-- Reset makes every bank unconstructed, is answered with no response, and discards the packet that was being presented (R230); the
parameters are kept (R231). That the packets behind the reset stay presented is the model's reading (log entry 6), and in no rule. -/
def Obligations.ResetUnconstructsEveryBank : Prop :=
  ∀ (s : State) (cut : Option Packet) (q : List Input), s.port = .reset cut :: q →
    ∃ t, step s = .next t ∧ t.port = q ∧ t.out = s.out ∧ t.cfg = s.cfg ∧ t.banks.length = s.cfg.nb ∧
      ∀ k, (t.bank k).valid = false

/-- R23: the thirteen commands that construct nothing report NOT_CONSTRUCTED on an unconstructed bank and change nothing, copy from an
unconstructed bank reports COPY_SOURCE, construction sets `VALID`, and no command clears it; reset does. -/
def Obligations.UnconstructedBanksAreReported : Prop :=
  (∀ (s : State) (i : Instr), i.constructs = false → i.bank.toNat < s.cfg.nb → (s.bank i.bank).valid = false →
    Fails i s 19) ∧
  (∀ (s : State) (bk src : BankNo), bk.toNat < s.cfg.nb → (s.bank src).valid = false → Fails (.copy bk src) s 10) ∧
  (∀ (s t : State) (i : Instr), s.WF → i.constructs = true → exec i s = .next t → t.out = s.out ++ [[0]] →
    (t.bank i.bank).valid = true) ∧
  (∀ (s t : State) (i : Instr) (k : BankNo), exec i s = .next t → (s.bank k).valid = true → (t.bank k).valid = true) ∧
  (∀ (s : State) (cut : Option Packet) (q : List Input), s.port = .reset cut :: q →
    ∃ t, step s = .next t ∧ ∀ k, (t.bank k).valid = false)

/-- After reset, every command on a bank but its construction reports NOT_CONSTRUCTED, and copy reports COPY_SOURCE (R232). -/
def Obligations.AfterResetOnlyConstructionWorks : Prop :=
  ∀ (s : State) (cut : Option Packet) (p : Packet) (q : List Input) (i : Instr),
    s.port = .reset cut :: .packet p :: q → decode p = .accept i → i.bank.toNat < s.cfg.nb →
    ∃ t, step s = .next t ∧ (i.constructs = false → StepFails t 19) ∧ (i.copies = true → StepFails t 10)

/-- What an unconstructed bank holds never reaches a response or a constructed bank: two states that differ only there stay so, step by
step, with equal responses (R35, R232). The values the model gives such a bank at reset (log entry 3) are thus without effect. -/
def Obligations.UnconstructedContentsAreInvisible : Prop :=
  ∀ s s' t : State, SameVisible s s' → step s = .next t → ∃ t', step s' = .next t' ∧ SameVisible t t'

/-- R32: a command writes only the bank its `BK` field names, and a command other than copy depends on no other bank: neither its
response nor its bank afterwards. -/
def Obligations.BanksAreIndependent : Prop :=
  (∀ (s t : State) (i : Instr) (k : BankNo), exec i s = .next t → k ≠ i.bank → t.bank k = s.bank k) ∧
  (∀ (s s' t t' : State) (i : Instr), i.copies = false → s.cfg = s'.cfg → s.out = s'.out →
    s.banks.length = s'.banks.length → s.bank i.bank = s'.bank i.bank → exec i s = .next t → exec i s' = .next t' →
    t.out = t'.out ∧ t.bank i.bank = t'.bank i.bank)

/-- R231: no command and no reset changes the parameters. -/
def Obligations.ParametersAreFixed : Prop := ∀ s t : State, step s = .next t → t.cfg = s.cfg

/-- The length of a bank changes by construction only (R22). -/
def Obligations.LengthIsFixedByConstruction : Prop :=
  ∀ (s t : State) (i : Instr) (k : BankNo), i.constructs = false → exec i s = .next t → (t.bank k).len = (s.bank k).len

/-- R48: the six reading commands change no bank, whether they succeed or fail, and give the same response again; a second identical
command of the eight idempotent writers leaves the banks as they are; a second rotation does not. -/
def Obligations.ReadsAndRepeats : Prop :=
  (∀ (s t : State) (i : Instr), i.reads = true → exec i s = .next t →
    t.banks = s.banks ∧ ∃ r u, t.out = s.out ++ [r] ∧ exec i t = .next u ∧ u.out = t.out ++ [r]) ∧
  (∀ (s t u : State) (i : Instr), s.WF → (∀ bk, i ≠ .rotateLeft bk ∧ i ≠ .rotateRight bk) → exec i s = .next t →
    exec i t = .next u → u.banks = t.banks) ∧
  (∀ (s t u : State) (bk : BankNo) (i : Instr), Ready s bk → 17 ≤ (s.bank bk).len →
    i = .rotateLeft bk ∨ i = .rotateRight bk → exec i s = .next t → exec i t = .next u → u.banks ≠ t.banks)

/-! ## Construction, copy and length -/

/-- R100: newEmptyBuffer completes on every bank the block has, constructed or not; the bank becomes twenty zero bytes, and then
validates. -/
def Obligations.NewEmptyBufferCompletes : Prop :=
  ∀ (s : State) (bk : BankNo), s.WF → bk.toNat < s.cfg.nb →
    encode (.newEmptyBuffer bk) = [headerOf 0x01 bk.toNat 0 0] ∧
    Commits (.newEmptyBuffer bk) s (Bank.Holds 20 fun _ => 0) ∧
    ∀ t, exec (.newEmptyBuffer bk) s = .next t → Returns (.validateChecksum bk) t []

/-- R101: construct completes when its bytes fit the capacity; the bank becomes those bytes. Otherwise it reports CAPACITY. -/
def Obligations.ConstructCompletes : Prop :=
  ∀ (s : State) (bk : BankNo) (vals : List Byte), s.WF → bk.toNat < s.cfg.nb → vals.length < 65536 →
    encode (.construct bk vals) = headerOf 0x02 bk.toNat 0 vals.length :: vals.map (BitVec.setWidth 32) ∧
    (vals.length ≤ s.cfg.cap → Commits (.construct bk vals) s (Bank.Holds vals.length fun j => vals.getD j 0)) ∧
    (s.cfg.cap < vals.length → Fails (.construct bk vals) s 20)

/-- R102: copy completes from a constructed bank; the destination becomes equal to it, constructed before or not. From any other bank
number it reports COPY_SOURCE; a destination the block does not have is reported first. -/
def Obligations.CopyCompletes : Prop :=
  ∀ (s : State) (bk src : BankNo), s.WF →
    encode (.copy bk src) = [headerOf 0x03 bk.toNat src.toNat 0] ∧
    (s.cfg.nb ≤ bk.toNat → Fails (.copy bk src) s 18) ∧
    (bk.toNat < s.cfg.nb →
      (src.toNat < s.cfg.nb → (s.bank src).valid = true → Commits (.copy bk src) s fun b => b = s.bank src) ∧
      (s.cfg.nb ≤ src.toNat ∨ (s.bank src).valid = false → Fails (.copy bk src) s 10))

/-- R104: getLength returns the length of a constructed bank, and reports NOT_CONSTRUCTED on any other. -/
def Obligations.GetLengthCompletes : Prop :=
  ∀ (s : State) (bk : BankNo), s.WF → bk.toNat < s.cfg.nb →
    encode (.getLength bk) = [headerOf 0x04 bk.toNat 0 0] ∧
    ((s.bank bk).valid = true → Returns (.getLength bk) s [BitVec.ofNat 32 (s.bank bk).len]) ∧
    ((s.bank bk).valid = false → Fails (.getLength bk) s 19)

/-! ## Bit access -/

/-- R121: getBit returns bit `i % 8` of byte `i / 8` for every index below `8 * LEN`, and reports OUT_OF_BOUNDS for any other. -/
def Obligations.GetBitCompletes : Prop :=
  ∀ (s : State) (bk : BankNo) (i : Half), Ready s bk →
    encode (.getBit bk i) = [headerOf 0x10 bk.toNat 0 i.toNat] ∧
    (i.toNat < 8 * (s.bank bk).len → Returns (.getBit bk i) s [boolWord ((s.bank bk).bitSet i.toNat)]) ∧
    (8 * (s.bank bk).len ≤ i.toNat → Fails (.getBit bk i) s 7)

/-- R122: setBit writes the one bit its index names, for every index below `8 * LEN`; every other bit of every bank is kept. -/
def Obligations.SetBitCompletes : Prop :=
  ∀ (s : State) (bk : BankNo) (i : Half) (v : Bit), Ready s bk →
    encode (.setBit bk i v) = [headerOf 0x11 bk.toNat v.toNat i.toNat] ∧
    (i.toNat < 8 * (s.bank bk).len → Commits (.setBit bk i v) s fun b =>
      b.valid = true ∧ b.len = (s.bank bk).len ∧
        ∀ n, b.bitSet n = if n = i.toNat then v == 1 else (s.bank bk).bitSet n) ∧
    (8 * (s.bank bk).len ≤ i.toNat → Fails (.setBit bk i v) s 7)

/-- R123: getBits returns one word for each index, in the order of the request, when every index is in bounds; one that is not makes
the whole command fail. -/
def Obligations.GetBitsCompletes : Prop :=
  ∀ (s : State) (bk : BankNo) (idx : List Half), Ready s bk → idx.length < 65536 →
    encode (.getBits bk idx) = headerOf 0x12 bk.toNat 0 idx.length :: idx.map (BitVec.setWidth 32) ∧
    ((∀ i ∈ idx, i.toNat < 8 * (s.bank bk).len) →
      Returns (.getBits bk idx) s (idx.map fun i => boolWord ((s.bank bk).bitSet i.toNat))) ∧
    ((∃ i ∈ idx, 8 * (s.bank bk).len ≤ i.toNat) → Fails (.getBits bk idx) s 7)

/-- R124: setBits with equal counts and every index in bounds writes each index its value, the last one where an index repeats, and
keeps every other bit. Differing counts are reported first, then an index out of bounds; either writes nothing. -/
def Obligations.SetBitsCompletes : Prop :=
  ∀ (s : State) (bk : BankNo) (idx : List Half) (vals : List Bit), Ready s bk → idx.length < 65536 → vals.length < 65536 →
    encode (.setBits bk idx vals) = headerOf 0x13 bk.toNat 0 idx.length :: operandOf vals.length 0 ::
      (idx.map (BitVec.setWidth 32) ++ vals.map (BitVec.setWidth 32)) ∧
    (idx.length ≠ vals.length → Fails (.setBits bk idx vals) s 4) ∧
    (idx.length = vals.length →
      ((∃ i ∈ idx, 8 * (s.bank bk).len ≤ i.toNat) → Fails (.setBits bk idx vals) s 7) ∧
      ((∀ i ∈ idx, i.toNat < 8 * (s.bank bk).len) → Commits (.setBits bk idx vals) s fun b =>
        b.valid = true ∧ b.len = (s.bank bk).len ∧
          ∀ n, b.bitSet n = lastWrite ((idx.map BitVec.toNat).zip vals) n ((s.bank bk).bitSet n)))

/-- With distinct indices the outcome of setBits does not depend on the order of the list (R124, C4). -/
def Obligations.SetBitsOrderIsFree : Prop :=
  ∀ (s : State) (bk : BankNo) (idx idx' : List Half) (vals vals' : List Bit), s.WF → idx.Nodup →
    idx.length = vals.length → idx'.length = vals'.length → (idx.zip vals).Perm (idx'.zip vals') →
    exec (.setBits bk idx vals) s = exec (.setBits bk idx' vals') s

/-! ## Byte access -/

/-- R141: getByte returns the byte at every position below `LEN`, and reports OUT_OF_BOUNDS at any other. -/
def Obligations.GetByteCompletes : Prop :=
  ∀ (s : State) (bk : BankNo) (i : Half), Ready s bk →
    encode (.getByte bk i) = [headerOf 0x20 bk.toNat 0 i.toNat] ∧
    (i.toNat < (s.bank bk).len → Returns (.getByte bk i) s [((s.bank bk).byte i.toNat).setWidth 32]) ∧
    ((s.bank bk).len ≤ i.toNat → Fails (.getByte bk i) s 7)

/-- R142: setByte writes the one byte its index names, at every position below `LEN`; every other byte of every bank is kept. -/
def Obligations.SetByteCompletes : Prop :=
  ∀ (s : State) (bk : BankNo) (i : Half) (v : Byte), Ready s bk →
    encode (.setByte bk i v) = [headerOf 0x21 bk.toNat 0 i.toNat, operandOf 0 v.toNat] ∧
    (i.toNat < (s.bank bk).len → Commits (.setByte bk i v) s
      (Bank.Holds (s.bank bk).len fun j => if j = i.toNat then v else (s.bank bk).byte j)) ∧
    ((s.bank bk).len ≤ i.toNat → Fails (.setByte bk i v) s 7)

/-- R143: getBytes returns the bytes from `first` to `last`, both included, in ascending order. Bounds out of order are reported
first, then a bound outside the bank. -/
def Obligations.GetBytesCompletes : Prop :=
  ∀ (s : State) (bk : BankNo) (first last : Half), Ready s bk →
    encode (.getBytes bk first last) = [headerOf 0x22 bk.toNat 0 first.toNat, operandOf 0 last.toNat] ∧
    (last.toNat < first.toNat → Fails (.getBytes bk first last) s 8) ∧
    (first.toNat ≤ last.toNat →
      ((s.bank bk).len ≤ last.toNat → Fails (.getBytes bk first last) s 7) ∧
      (last.toNat < (s.bank bk).len → Returns (.getBytes bk first last) s
        ((List.range' first.toNat (last.toNat - first.toNat + 1)).map fun j => ((s.bank bk).byte j).setWidth 32)))

/-- R144: setBytes writes its values at the positions from `first` to `last` and keeps every other byte. A count that does not match the
range is reported first, then bounds out of order, then a bound outside the bank; each writes nothing. -/
def Obligations.SetBytesCompletes : Prop :=
  ∀ (s : State) (bk : BankNo) (first last : Half) (vals : List Byte), Ready s bk → vals.length < 65536 →
    encode (.setBytes bk first last vals) = headerOf 0x23 bk.toNat 0 first.toNat ::
      operandOf vals.length last.toNat :: vals.map (BitVec.setWidth 32) ∧
    (vals.length + first.toNat ≠ last.toNat + 1 → Fails (.setBytes bk first last vals) s 5) ∧
    (vals.length + first.toNat = last.toNat + 1 →
      (last.toNat < first.toNat → Fails (.setBytes bk first last vals) s 8) ∧
      (first.toNat ≤ last.toNat →
        ((s.bank bk).len ≤ last.toNat → Fails (.setBytes bk first last vals) s 7) ∧
        (last.toNat < (s.bank bk).len → Commits (.setBytes bk first last vals) s
          (Bank.Holds (s.bank bk).len fun j =>
            if first.toNat ≤ j ∧ j ≤ last.toNat then vals.getD (j - first.toNat) 0 else (s.bank bk).byte j))))

/-- getBytes after setBytes on the same range returns exactly the values written (R51, R144). -/
def Obligations.SetBytesThenGetBytes : Prop :=
  ∀ (s : State) (bk : BankNo) (first last : Half) (vals : List Byte), Ready s bk → first.toNat ≤ last.toNat →
    last.toNat < (s.bank bk).len → vals.length + first.toNat = last.toNat + 1 →
    ∃ t, exec (.setBytes bk first last vals) s = .next t ∧
      Returns (.getBytes bk first last) t (vals.map (BitVec.setWidth 32))

/-- The bit view and the byte view are the same storage: bit `n` of byte `j` is bit index `8 * j + n`, and a write through either view is
seen by a read through the other (R41). -/
def Obligations.BitAndByteViewsAgree : Prop :=
  ∀ (s : State) (bk : BankNo) (j n i : Half), Ready s bk → j.toNat < (s.bank bk).len → n.toNat < 8 →
    i.toNat = 8 * j.toNat + n.toNat →
    (∀ v : Byte, ∃ t, exec (.setByte bk j v) s = .next t ∧ Returns (.getBit bk i) t [boolWord (v.getLsbD n.toNat)]) ∧
    (∀ v : Bit, ∃ t w, exec (.setBit bk i v) s = .next t ∧ Returns (.getByte bk j) t [w] ∧
      ∀ m, w.getLsbD m = if m = n.toNat then v == 1 else ((s.bank bk).byte j.toNat).getLsbD m)

/-! ## Checksum -/

/-- The checksum is the integer sum of the summed bytes reduced modulo 256, and equals summing with a wrap after every addition
(R161). -/
def Obligations.ChecksumIsTheWrappedSum : Prop :=
  ∀ (b : Bank) (lo : Nat), (b.csum lo).toNat = b.checksumValue lo ∧
    b.csum lo = ((List.range' lo (17 - lo)).map b.byte).foldl (· + ·) 0

/-- R162: validateChecksum completes exactly when the bank has a checksum byte and it equals the computed checksum; a short bank is
reported first, then a differing checksum. -/
def Obligations.ValidateChecksumCompletes : Prop :=
  ∀ (s : State) (bk : BankNo), Ready s bk →
    encode (.validateChecksum bk) = [headerOf 0x30 bk.toNat 0 0] ∧
    ((s.bank bk).len ≤ 17 → Fails (.validateChecksum bk) s 7) ∧
    (17 < (s.bank bk).len →
      (((s.bank bk).byte 17).toNat ≠ (s.bank bk).checksumValue s.cfg.csumLo → Fails (.validateChecksum bk) s 9) ∧
      (((s.bank bk).byte 17).toNat = (s.bank bk).checksumValue s.cfg.csumLo → Returns (.validateChecksum bk) s []))

/-- R163: fixChecksum writes the computed checksum to byte 17 and keeps every other byte; on a short bank it reports OUT_OF_BOUNDS. A
validateChecksum right after it completes. -/
def Obligations.FixChecksumCompletes : Prop :=
  ∀ (s : State) (bk : BankNo), Ready s bk →
    encode (.fixChecksum bk) = [headerOf 0x31 bk.toNat 0 0] ∧
    ((s.bank bk).len ≤ 17 → Fails (.fixChecksum bk) s 7) ∧
    (17 < (s.bank bk).len →
      Commits (.fixChecksum bk) s (Bank.Holds (s.bank bk).len fun j =>
        if j = 17 then BitVec.ofNat 8 ((s.bank bk).checksumValue s.cfg.csumLo) else (s.bank bk).byte j) ∧
      ∀ t, exec (.fixChecksum bk) s = .next t → Returns (.validateChecksum bk) t [])

/-- On a bank that validates, writing one byte makes validation fail exactly when the byte is summed or is the checksum byte and the
value differs; a write to any other position never does (R164). -/
def Obligations.ChecksumDetectsOneChangedByte : Prop :=
  ∀ (s : State) (bk : BankNo) (i : Half) (v : Byte), Ready s bk → 17 < (s.bank bk).len → i.toNat < (s.bank bk).len →
    ((s.bank bk).byte 17).toNat = (s.bank bk).checksumValue s.cfg.csumLo →
    ∃ t, exec (.setByte bk i v) s = .next t ∧
      (s.cfg.csumLo ≤ i.toNat ∧ i.toNat ≤ 17 ∧ v ≠ (s.bank bk).byte i.toNat → Fails (.validateChecksum bk) t 9) ∧
      (i.toNat < s.cfg.csumLo ∨ 17 < i.toNat ∨ v = (s.bank bk).byte i.toNat → Returns (.validateChecksum bk) t [])

/-! ## Rotation -/

/-- The window as the machine forms it is the sum of R181, and bit `n` of byte `j` is bit `8 * (15 - j) + n` of it and bit index `8 * j + n`
of the bank (R42, R181). -/
def Obligations.WindowIsBigEndian : Prop :=
  ∀ b : Bank, b.window.toNat = b.windowValue ∧
    ∀ j n, j < 16 → n < 8 → b.windowValue.testBit (8 * (15 - j) + n) = b.bitSet (8 * j + n)

/-- R182: rotateLeft rotates the 128-bit window left by one bit, adds one to the counter byte modulo 256, and touches no byte from 17 on
and no other bank; on a bank without a counter byte it reports OUT_OF_BOUNDS. -/
def Obligations.RotateLeftCompletes : Prop :=
  ∀ (s : State) (bk : BankNo), Ready s bk →
    encode (.rotateLeft bk) = [headerOf 0x40 bk.toNat 0 0] ∧
    ((s.bank bk).len ≤ 16 → Fails (.rotateLeft bk) s 7) ∧
    (17 ≤ (s.bank bk).len → Commits (.rotateLeft bk) s fun b =>
      b.valid = true ∧ b.len = (s.bank bk).len ∧
      b.windowValue = (s.bank bk).windowValue * 2 % 2 ^ 128 + (s.bank bk).windowValue / 2 ^ 127 ∧
      (b.byte 16).toNat = (((s.bank bk).byte 16).toNat + 1) % 256 ∧
      ∀ j, 17 ≤ j → b.byte j = (s.bank bk).byte j)

/-- R183: rotateRight rotates the 128-bit window right by one bit, subtracts one from the counter byte modulo 256, and touches no byte
from 17 on and no other bank; on a bank without a counter byte it reports OUT_OF_BOUNDS. -/
def Obligations.RotateRightCompletes : Prop :=
  ∀ (s : State) (bk : BankNo), Ready s bk →
    encode (.rotateRight bk) = [headerOf 0x41 bk.toNat 0 0] ∧
    ((s.bank bk).len ≤ 16 → Fails (.rotateRight bk) s 7) ∧
    (17 ≤ (s.bank bk).len → Commits (.rotateRight bk) s fun b =>
      b.valid = true ∧ b.len = (s.bank bk).len ∧
      b.windowValue = (s.bank bk).windowValue / 2 + (s.bank bk).windowValue % 2 * 2 ^ 127 ∧
      (b.byte 16).toNat = (((s.bank bk).byte 16).toNat + 255) % 256 ∧
      ∀ j, 17 ≤ j → b.byte j = (s.bank bk).byte j)

/-- R184: the rotations equal the byte-wise loops, every right-hand side reading the bytes from before the command. -/
def Obligations.RotationByteWise : Prop :=
  ∀ (s : State) (bk : BankNo), Ready s bk → 17 ≤ (s.bank bk).len →
    (Commits (.rotateLeft bk) s fun b => ∀ j, j < 16 →
      (b.byte j).toNat = ((s.bank bk).byte j).toNat * 2 % 256 ||| ((s.bank bk).byte ((j + 1) % 16)).toNat / 128) ∧
    (Commits (.rotateRight bk) s fun b => ∀ j, j < 16 →
      (b.byte j).toNat = ((s.bank bk).byte j).toNat / 2 ||| ((s.bank bk).byte ((j + 15) % 16)).toNat % 2 * 128)

/-- R185: a rotation and its inverse, in either order, restore every byte; `n` left rotations rotate the window left by `n % 128` bits and
add `n` to the counter, `n` right rotations rotate it right and subtract `n`; 128 of either restore the window and 256 every byte. -/
def Obligations.RotationLaws : Prop :=
  ∀ (s : State) (bk : BankNo), Ready s bk → 17 ≤ (s.bank bk).len →
    (∃ t u, exec (.rotateLeft bk) s = .next t ∧ exec (.rotateRight bk) t = .next u ∧ u.bank bk = s.bank bk) ∧
    (∃ t u, exec (.rotateRight bk) s = .next t ∧ exec (.rotateLeft bk) t = .next u ∧ u.bank bk = s.bank bk) ∧
    (∀ n, ∃ t, repeatExec n (.rotateLeft bk) s = .next t ∧
      (t.bank bk).windowValue = (s.bank bk).windowValue * 2 ^ (n % 128) % 2 ^ 128 +
        (s.bank bk).windowValue / 2 ^ (128 - n % 128) ∧
      ((t.bank bk).byte 16).toNat = (((s.bank bk).byte 16).toNat + n) % 256 ∧
      (∀ j, 17 ≤ j → (t.bank bk).byte j = (s.bank bk).byte j) ∧
      (n = 128 → ∀ j, j < 16 → (t.bank bk).byte j = (s.bank bk).byte j) ∧
      (n = 256 → t.bank bk = s.bank bk)) ∧
    (∀ n, ∃ t, repeatExec n (.rotateRight bk) s = .next t ∧
      (t.bank bk).windowValue = (s.bank bk).windowValue / 2 ^ (n % 128) +
        (s.bank bk).windowValue % 2 ^ (n % 128) * 2 ^ (128 - n % 128) ∧
      (((t.bank bk).byte 16).toNat + n) % 256 = ((s.bank bk).byte 16).toNat ∧
      (∀ j, 17 ≤ j → (t.bank bk).byte j = (s.bank bk).byte j) ∧
      (n = 128 → ∀ j, j < 16 → (t.bank bk).byte j = (s.bank bk).byte j) ∧
      (n = 256 → t.bank bk = s.bank bk))

/-- R186: rotateLeft moves the bit at index `8 * j + n` to the next index within its byte, from bit 7 of a byte to bit 0 of the byte
before it, and from index 7 to index 120; rotateRight is the inverse map. -/
def Obligations.RotationInBitIndices : Prop :=
  ∀ (s : State) (bk : BankNo), Ready s bk → 17 ≤ (s.bank bk).len →
    (Commits (.rotateLeft bk) s fun b => ∀ j n, j < 16 → n < 8 →
      b.bitSet (if n < 7 then 8 * j + n + 1 else if 1 ≤ j then 8 * (j - 1) else 120) = (s.bank bk).bitSet (8 * j + n)) ∧
    (Commits (.rotateRight bk) s fun b => ∀ j n, j < 16 → n < 8 →
      b.bitSet (8 * j + n) = (s.bank bk).bitSet (if n < 7 then 8 * j + n + 1 else if 1 ≤ j then 8 * (j - 1) else 120))

/-! ## The host's side -/

/-- R81: each pseudo-instruction stands for its commands, and presenting them runs them one after another, with nothing between. -/
def Obligations.PseudoInstructionsExpand : Prop :=
  (∀ bk i, (Pseudo.clearBit bk i).expand = [.setBit bk i 0]) ∧
  (∀ (s : State) (bk : BankNo) (n : Nat) (q : List Input),
    s.port = (Pseudo.rotateLeftN bk n).expand.map (fun i => Input.packet (encode i)) ++ q →
    Host.Core.run Sys2Proof.core n s = repeatExec n (.rotateLeft bk) s) ∧
  (∀ (s : State) (bk : BankNo) (n : Nat) (q : List Input),
    s.port = (Pseudo.rotateRightN bk n).expand.map (fun i => Input.packet (encode i)) ++ q →
    Host.Core.run Sys2Proof.core n s = repeatExec n (.rotateRight bk) s)

/-- A line in a form of R80 or R81, with or without a comment, is accepted exactly when every operand fits its field, and then
stands for the command its row encodes or the commands it expands to; a line with an operand that does not fit (a bank above 15, an
index, bound or count above 65535, a byte above 255, a bit value of another spelling) is refused. Whatever line is accepted, its
commands can be carried by packets, and the decoder reads them back. That a digit of a hexadecimal number may have either case, that
leading zeros are allowed, and that the count of a rotation pseudo-instruction has no upper limit, is the model's choice (log entry
9). -/
def Obligations.AssembledLinesDecode : Prop :=
  (∀ (l : Line) (comment : List Char), l.Written → (comment = [] ∨ ∃ c, comment = ' ' :: ';' :: c) →
    ∀ cs, assembleLine (l.text ++ comment) = some cs ↔ l.Gives cs) ∧
  (∀ (line : List Char) (cs : List Instr), assembleLine line = some cs →
    ∀ i ∈ cs, i.wellFormed = true ∧ decode (encode i) = .accept i)

/-- Which texts an operand may have, and which value each has: a number is a numeral whose value fits the field, a bank is `b0` to
`b15`, and a bit value is one of its four spellings; every other text is refused (R80). Digits of either case in a hexadecimal
number, and leading zeros, are the model's choice (log entry 9). -/
def Obligations.OperandsThatDoNotFitAreRefused : Prop :=
  (∀ (w : Nat) (cs : List Char) (v : BitVec w), readField w cs = some v ↔ ∃ n : Numeral, n.Written ∧ n.text = cs ∧ Fits n v) ∧
  (∀ (cs : List Char) (k : BankNo), readBank cs = some k ↔ cs = bankText k.toNat) ∧
  (∀ (cs : List Char) (v : Bit), readBit cs = some v ↔ (cs, v) ∈ bitSpellings)
end

