-- ==== Sys2Proof/Laws/Assembler.lean ====
section
/-! SUPPORT. What the assembler reads from the text of a line, once: the tokens of words, lists and comments, the operands read from
those tokens, and with them what a line of a form is assembled to. -/

namespace Sys2Proof.Machine

/-! ### Words and separators into tokens -/

/-- What a rest of a line begins with where a word has ended: nothing, or a separator, a bracket or a comment sign. -/
def EndsWord : List Char → Prop
  | [] => True
  | c :: _ => c ∈ [' ', '\t', '\r', ',', '[', ']', ';']

/-- The characters of a word are gathered. -/
theorem tokens_gather {w : List Char} (hw : ∀ c ∈ w, c ∉ [' ', '\t', '\r', ',', '[', ']', ';']) (cur r : List Char) :
    tokens cur (w ++ r) = tokens (cur ++ w) r := by
  induction w generalizing cur with
  | nil => simp
  | cons c w ih =>
    have hc := hw c (by simp)
    simp only [List.mem_cons, List.not_mem_nil, or_false, not_or] at hc
    rw [List.cons_append, tokens, if_neg (by tauto), if_neg (by tauto), if_neg (by tauto), if_neg (by tauto), if_neg (by tauto),
      ih (fun d hd => hw d (by simp [hd]))]
    simp

/-- The word gathered so far becomes a token where it ends. -/
theorem tokens_flush {cur : List Char} (hcur : cur ≠ []) {r : List Char} (hr : EndsWord r) :
    tokens cur r = .text cur :: tokens [] r := by
  have hf : ∀ ts, flushText cur ts = .text cur :: ts := fun ts => if_neg hcur
  have h0 : ∀ ts, flushText [] ts = ts := fun ts => if_pos rfl
  cases r with
  | nil => rw [tokens, hf, tokens, h0]
  | cons c r =>
    simp only [EndsWord, List.mem_cons, List.not_mem_nil, or_false] at hr
    rcases hr with rfl | rfl | rfl | rfl | rfl | rfl | rfl <;> simp [tokens, hf, h0]

/-- A word followed by its end. -/
theorem tokens_word {w : List Char} (hw : IsWord w) {r : List Char} (hr : EndsWord r) :
    tokens [] (w ++ r) = .text w :: tokens [] r := by
  rw [tokens_gather hw.2, List.nil_append, tokens_flush hw.1 hr]

theorem tokens_blank (r : List Char) : tokens [] (' ' :: r) = tokens [] r := by simp [tokens, flushText]
theorem tokens_comma (r : List Char) : tokens [] (',' :: r) = .comma :: tokens [] r := by simp [tokens, flushText]
theorem tokens_opened (r : List Char) : tokens [] ('[' :: r) = .opened :: tokens [] r := by simp [tokens, flushText]
theorem tokens_closed (r : List Char) : tokens [] (']' :: r) = .closed :: tokens [] r := by simp [tokens, flushText]
theorem tokens_comment (r : List Char) : tokens [] (';' :: r) = [] := by simp [tokens, flushText]

/-! ### Operands into tokens -/

@[simp] theorem commaText_nil : commaText [] = [] := rfl
@[simp] theorem commaText_one (t : List Char) : commaText [t] = t := by simp [commaText, List.intercalate]
@[simp] theorem commaText_cons (t u : List Char) (ts : List (List Char)) :
    commaText (t :: u :: ts) = t ++ (',' :: ' ' :: commaText (u :: ts)) := by
  simp [commaText, List.intercalate]

/-- The tokens of words separated by commas. -/
def wordTokens : List (List Char) → List Token
  | [] => []
  | [w] => [.text w]
  | w :: v :: ws => .text w :: .comma :: wordTokens (v :: ws)

theorem tokens_words {ws : List (List Char)} (hw : ∀ w ∈ ws, IsWord w) {r : List Char} (hr : EndsWord r) :
    tokens [] (commaText ws ++ r) = wordTokens ws ++ tokens [] r := by
  induction ws with
  | nil => rfl
  | cons w ws ih =>
    cases ws with
    | nil => rw [commaText_one, tokens_word (hw w (by simp)) hr]; rfl
    | cons v ws =>
      rw [commaText_cons, List.append_assoc, tokens_word (hw w (by simp)) (by simp [EndsWord]), List.cons_append, List.cons_append,
        tokens_comma, tokens_blank, ih fun u hu => hw u (by simp [hu])]
      rfl

/-- The text of an operand. -/
def Arg.text : Arg → List Char
  | .one w => w
  | .many ws => listText ws

/-- The operand is made of words. -/
def Arg.Words : Arg → Prop
  | .one w => IsWord w
  | .many ws => ∀ w ∈ ws, IsWord w

/-- The tokens of an operand. -/
def Arg.tokens : Arg → List Token
  | .one w => [.text w]
  | .many ws => .opened :: (wordTokens ws ++ [.closed])

/-- The tokens of operands separated by commas. -/
def argTokens : List Arg → List Token
  | [] => []
  | [a] => a.tokens
  | a :: b :: as => a.tokens ++ .comma :: argTokens (b :: as)

theorem tokens_arg {a : Arg} (ha : a.Words) {r : List Char} (hr : EndsWord r) :
    tokens [] (a.text ++ r) = a.tokens ++ tokens [] r := by
  cases a with
  | one w => exact tokens_word ha hr
  | many ws =>
    simp only [Arg.text, listText, Arg.tokens, List.cons_append, List.append_assoc]
    rw [tokens_opened, tokens_words ha (by simp [EndsWord]), List.nil_append, List.nil_append, tokens_closed]

theorem tokens_args {as : List Arg} (ha : ∀ a ∈ as, a.Words) {r : List Char} (hr : EndsWord r) :
    tokens [] (commaText (as.map Arg.text) ++ r) = argTokens as ++ tokens [] r := by
  induction as with
  | nil => rfl
  | cons a as ih =>
    cases as with
    | nil => rw [List.map_cons, List.map_nil, commaText_one, tokens_arg (ha a (by simp)) hr]; rfl
    | cons b as =>
      rw [List.map_cons, List.map_cons, commaText_cons, List.append_assoc, tokens_arg (ha a (by simp)) (by simp [EndsWord]),
        List.cons_append, List.cons_append, tokens_comma, tokens_blank, ← List.map_cons, ih fun c hc => ha c (by simp [hc])]
      simp [argTokens]

/-! ### Tokens into operands -/

theorem readArgs_words (acc : List (List Char)) (w : List Char) (ws : List (List Char)) (ts : List Token) :
    readArgs (.listBefore acc) (wordTokens (w :: ws) ++ .closed :: ts) =
      (readArgs .after ts).map (Arg.many (acc ++ w :: ws) :: ·) := by
  induction ws generalizing acc w with
  | nil => simp [wordTokens, readArgs]
  | cons v ws ih =>
    have h := ih (acc ++ [w]) v
    simp only [List.append_assoc, List.singleton_append] at h
    rw [← h]
    simp [wordTokens, readArgs]

theorem readArgs_arg (a : Arg) (ts : List Token) :
    readArgs .before (a.tokens ++ ts) = (readArgs .after ts).map (a :: ·) := by
  cases a with
  | one w => simp [Arg.tokens, readArgs]
  | many ws =>
    cases ws with
    | nil => simp [Arg.tokens, wordTokens, readArgs]
    | cons w ws =>
      cases ws with
      | nil => simp [Arg.tokens, wordTokens, readArgs]
      | cons v ws =>
        have h := readArgs_words [w] v ws ts
        simp only [List.singleton_append] at h
        rw [← h]
        simp [Arg.tokens, wordTokens, readArgs]

/-- The operands are read back from their tokens. -/
theorem readArgs_args (a : Arg) (as : List Arg) : readArgs .before (argTokens (a :: as)) = some (a :: as) := by
  induction as generalizing a with
  | nil =>
    have h := readArgs_arg a []
    simpa [argTokens, readArgs] using h
  | cons b as ih =>
    rw [argTokens, readArgs_arg]
    simp [readArgs, ih]

/-! ### A line -/

/-- What a line of a known mnemonic is assembled to: the bank, then the command of the mnemonic with the other operands, then the check
that packets can carry it. -/
theorem assembleLine_eq {m : List Char} {mn : Mnemonic} (hm : IsWord m) (hl : mnemonicMap.lookup m = some mn) {b : List Char}
    {as : List Arg} (hb : IsWord b) (ha : ∀ a ∈ as, a.Words) {comment : List Char}
    (hc : comment = [] ∨ ∃ c, comment = ' ' :: ';' :: c) :
    assembleLine (m ++ ' ' :: commaText (b :: as.map Arg.text) ++ comment) =
      (readBank b).bind fun bk => (readCommand mn bk as).bind encodable := by
  have hend : EndsWord comment ∧ tokens [] comment = [] := by
    rcases hc with rfl | ⟨c, rfl⟩
    · exact ⟨trivial, by simp [tokens, flushText]⟩
    · exact ⟨by simp [EndsWord], by rw [tokens_blank, tokens_comment]⟩
  have ht : tokens [] (m ++ ' ' :: commaText (b :: as.map Arg.text) ++ comment) = .text m :: argTokens (.one b :: as) := by
    have h := tokens_args (as := .one b :: as) (by simpa [Arg.Words] using ⟨hb, ha⟩) hend.1
    rw [List.append_assoc, tokens_word hm (by simp [EndsWord]), List.cons_append, tokens_blank]
    rw [hend.2, List.append_nil] at h
    exact congrArg _ h
  simp only [assembleLine, ht, hl, readArgs_args]

/-! ### Lists of operands -/

/-- A list is read exactly when each of its elements is. -/
theorem mapM_eq_some_iff {α β : Type} (f : α → Option β) (as : List α) (bs : List β) :
    as.mapM f = some bs ↔ List.Forall₂ (fun a b => f a = some b) as bs := by
  induction as generalizing bs with
  | nil => cases bs <;> simp
  | cons a as ih =>
    rw [List.mapM_cons]
    cases h : f a with
    | none => cases bs <;> simp [h]
    | some b =>
      cases hs : as.mapM f with
      | none =>
        cases bs with
        | nil => simp
        | cons c cs => have := ih cs; rw [hs] at this; simp [h, ← this]
      | some ds =>
        cases bs with
        | nil => simp
        | cons c cs => have := ih cs; rw [hs] at this; simp [h, ← this]

/-! ### Digits -/

theorem mem_of_lookup {α β : Type} [BEq α] [LawfulBEq α] {l : List (α × β)} {a : α} {b : β} (h : l.lookup a = some b) :
    (a, b) ∈ l := by
  induction l with
  | nil => simp at h
  | cons p l ih =>
    rw [List.lookup_cons] at h
    split at h
    · rename_i hp
      obtain rfl : a = p.1 := by simpa using hp
      obtain rfl : p.2 = b := by simpa using h
      simp
    · exact List.mem_cons_of_mem _ (ih h)

/-- A digit is read as the tables say. -/
theorem digitValue_eq_lookup (hex : Bool) (c : Char) :
    digitValue (if hex then 16 else 10) c = (decimalDigits ++ if hex then hexLetters else []).lookup c := by
  by_cases hc : c.toNat < 128
  · have key : ∀ (n : Fin 128) (hex : Bool), digitValue (if hex then 16 else 10) (Char.ofNat n.1) =
        (decimalDigits ++ if hex then hexLetters else []).lookup (Char.ofNat n.1) := by decide
    have h := key ⟨c.toNat, hc⟩ hex
    rwa [Char.ofNat_toNat] at h
  · have hne : ∀ p ∈ decimalDigits ++ hexLetters, (c == p.1) = false := by
      have key : ∀ p ∈ decimalDigits ++ hexLetters, p.1.toNat < 128 := by decide
      intro p hp
      rw [beq_eq_false_iff_ne]
      rintro rfl
      exact hc (key p hp)
    have hd : digitValue (if hex then 16 else 10) c = none := by
      simp only [digitValue]
      rw [if_neg (c := 48 ≤ _ ∧ _) (by omega), if_neg (c := 65 ≤ _ ∧ _) (by omega), if_neg (c := 97 ≤ _ ∧ _) (by omega)]
      cases hex <;> simp
    rw [hd, eq_comm, List.lookup_eq_none_iff]
    intro p hp
    refine bne_iff_ne.mpr (beq_eq_false_iff_ne.mp (hne p ?_))
    cases hex
    · simp only [Bool.false_eq_true, if_false, List.append_nil] at hp
      exact List.mem_append_left _ hp
    · exact hp

/-- A digit has a value exactly when the tables give it that value. -/
theorem digitValue_eq_some_iff (hex : Bool) (c : Char) (v : Nat) :
    digitValue (if hex then 16 else 10) c = some v ↔ (c, v) ∈ decimalDigits ++ if hex then hexLetters else [] := by
  rw [digitValue_eq_lookup]
  refine ⟨mem_of_lookup, ?_⟩
  have key : ∀ (hex : Bool), ∀ p ∈ decimalDigits ++ (if hex then hexLetters else []),
      (decimalDigits ++ if hex then hexLetters else []).lookup p.1 = some p.2 := by decide
  exact key hex (c, v)

/-- A run of digits is read as its place value, behind the value read so far. -/
theorem digitsValue_eq_some_iff (base acc : Nat) (cs : List Char) (n : Nat) :
    digitsValue base acc cs = some n ↔
      ∃ ds : List (Char × Nat), ds.map Prod.fst = cs ∧ (∀ d ∈ ds, digitValue base d.1 = some d.2) ∧
        n = acc * base ^ ds.length + Nat.ofDigits base (ds.reverse.map Prod.snd) := by
  induction cs generalizing acc with
  | nil =>
    simp only [digitsValue, List.map_eq_nil_iff, Option.some.injEq]
    constructor
    · rintro rfl; exact ⟨[], rfl, by simp, by simp⟩
    · rintro ⟨ds, rfl, -, h⟩; simpa using h.symm
  | cons c cs ih =>
    rw [digitsValue, Option.bind_eq_some_iff]
    constructor
    · rintro ⟨v, hv, h⟩
      obtain ⟨ds, hd, hall, hn⟩ := (ih _).mp h
      refine ⟨(c, v) :: ds, by simp [hd], by simpa [hv] using hall, ?_⟩
      rw [hn, List.reverse_cons, List.map_append, Nat.ofDigits_append]
      simp [pow_succ]
      ring
    · rintro ⟨ds, hd, hall, hn⟩
      cases ds with
      | nil => simp at hd
      | cons d ds =>
        obtain ⟨rfl, rfl⟩ : d.1 = c ∧ ds.map Prod.fst = cs := by simpa using hd
        refine ⟨d.2, hall d (by simp), (ih _).mpr ⟨ds, rfl, fun e he => hall e (by simp [he]), ?_⟩⟩
        rw [hn, List.reverse_cons, List.map_append, Nat.ofDigits_append]
        simp [pow_succ]
        ring

/-! ### Mnemonics, banks and numerals are words -/

theorem isWord_of_all {w : List Char} (h : (w != [] && w.all fun c => !(List.contains [' ', '\t', '\r', ',', '[', ']', ';'] c)) = true) :
    IsWord w := by
  simpa [IsWord, List.all_eq_true] using h

theorem isWord_mnemonic {m : List Char} (h : m ∈ mnemonicMap.map Prod.fst) : IsWord m := by
  have key : (mnemonicMap.map Prod.fst).all
      (fun w => w != [] && w.all fun c => !(List.contains [' ', '\t', '\r', ',', '[', ']', ';'] c)) = true := by decide
  exact isWord_of_all (List.all_eq_true.mp key m h)

theorem isWord_bankText (k : Nat) : IsWord (bankText k) := by
  refine ⟨by simp [bankText], fun c hc hs => ?_⟩
  rcases List.mem_cons.mp hc with rfl | hc
  · simp at hs
  · have hd := Nat.isDigit_of_mem_toDigits (by decide) (by decide) hc
    simp only [List.mem_cons, List.not_mem_nil, or_false] at hs
    rcases hs with rfl | rfl | rfl | rfl | rfl | rfl | rfl <;> exact absurd hd (by decide)

theorem isWord_numeral {n : Numeral} (h : n.Written) : IsWord n.text := by
  have key : ∀ (hex : Bool), ∀ p ∈ decimalDigits ++ (if hex then hexLetters else []),
      p.1 ∉ [' ', '\t', '\r', ',', '[', ']', ';'] := by decide
  obtain ⟨hex, ds⟩ := n
  refine ⟨fun h0 => ?_, fun c hc => ?_⟩
  · cases hex <;> simp [Numeral.text] at h0
    exact h.1 h0
  · rcases List.mem_append.mp hc with hc | hc
    · cases hex <;> simp at hc
      rcases hc with rfl | rfl <;> decide
    · obtain ⟨d, hd, rfl⟩ := List.mem_map.mp hc
      exact key hex d (h.2 d hd)

/-! ### Only what packets can carry -/

theorem encodable_eq_some_iff (is js : List Instr) : encodable is = some js ↔ (∀ i ∈ is, i.wellFormed = true) ∧ is = js := by
  unfold encodable
  split <;> simp_all

@[simp] theorem fitsCount_iff {α : Type} (l : List α) : fitsCount l = true ↔ l.length < 65536 := by simp [fitsCount]

end Sys2Proof.Machine
end

