-- ==== Sys2Proof/Laws/State.lean ====
section
/-! SUPPORT. What each update of the state does to each field, so that no later proof unfolds a record update. -/

namespace Sys2Proof.Machine

/-! ### `State.respond` -/

@[simp] theorem respond_cfg (s : State) (p : Packet) : (s.respond p).cfg = s.cfg := rfl
@[simp] theorem respond_banks (s : State) (p : Packet) : (s.respond p).banks = s.banks := rfl
@[simp] theorem respond_port (s : State) (p : Packet) : (s.respond p).port = s.port.tail := rfl
@[simp] theorem respond_out (s : State) (p : Packet) : (s.respond p).out = s.out ++ [p] := rfl
@[simp] theorem respond_bank (s : State) (p : Packet) (k : BankNo) : (s.respond p).bank k = s.bank k := rfl

/-! ### `State.setBank` -/

@[simp] theorem setBank_cfg (s : State) (k : BankNo) (b : Bank) : (s.setBank k b).cfg = s.cfg := rfl
@[simp] theorem setBank_port (s : State) (k : BankNo) (b : Bank) : (s.setBank k b).port = s.port := rfl
@[simp] theorem setBank_out (s : State) (k : BankNo) (b : Bank) : (s.setBank k b).out = s.out := rfl
@[simp] theorem setBank_banks (s : State) (k : BankNo) (b : Bank) : (s.setBank k b).banks = s.banks.set k.toNat b := rfl

/-- The bank just set reads back, where the bank exists. -/
theorem setBank_bank_same {s : State} {k : BankNo} (b : Bank) (h : k.toNat < s.banks.length) :
    (s.setBank k b).bank k = b := by
  simp [State.bank, State.setBank, h]

/-- Every other bank is kept (R32). -/
theorem setBank_bank_other (s : State) {k j : BankNo} (b : Bank) (h : j ≠ k) : (s.setBank k b).bank j = s.bank j := by
  have hne : k.toNat ≠ j.toNat := fun e => h (BitVec.eq_of_toNat_eq e.symm)
  simp [State.bank, State.setBank, List.getD_eq_getElem?_getD, List.getElem?_set_ne hne]

/-- Setting a bank to what it holds changes nothing. -/
theorem setBank_bank_self (s : State) (k : BankNo) : s.setBank k (s.bank k) = s := by
  have h : s.banks.set k.toNat (s.bank k) = s.banks := by
    apply List.ext_getElem? fun n => ?_
    by_cases hn : k.toNat = n
    · subst hn
      by_cases hl : k.toNat < s.banks.length
      · simp [State.bank, List.getD_eq_getElem?_getD, hl]
      · simp [Nat.not_lt.mp hl]
    · simp [List.getElem?_set_ne hn]
  simp [State.setBank, h]

/-! ### `State.takeReset` -/

@[simp] theorem takeReset_cfg (s : State) : s.takeReset.cfg = s.cfg := rfl
@[simp] theorem takeReset_banks (s : State) : s.takeReset.banks = List.replicate s.cfg.nb Bank.unconstructed := rfl
@[simp] theorem takeReset_port (s : State) : s.takeReset.port = s.port.tail := rfl
@[simp] theorem takeReset_out (s : State) : s.takeReset.out = s.out := rfl

/-- After reset every bank number names an unconstructed bank (R230). -/
@[simp] theorem takeReset_bank (s : State) (k : BankNo) : s.takeReset.bank k = Bank.unconstructed := by
  simp only [State.bank, takeReset_banks, List.getD_eq_getElem?_getD, List.getElem?_replicate]
  split <;> rfl

/-! ### `State.resetOf` -/

@[simp] theorem resetOf_cfg (c : Config) : (State.resetOf c).cfg = c := rfl
@[simp] theorem resetOf_banks (c : Config) : (State.resetOf c).banks = List.replicate c.nb Bank.unconstructed := rfl
@[simp] theorem resetOf_port (c : Config) : (State.resetOf c).port = [] := rfl
@[simp] theorem resetOf_out (c : Config) : (State.resetOf c).out = [] := rfl

/-! ### `Bank.setByte`, `Bank.memWrite`, `Bank.zeros`, `Bank.ofBytes` -/

@[simp] theorem setByte_valid (b : Bank) (j : Nat) (v : Byte) : (b.setByte j v).valid = b.valid := rfl
@[simp] theorem setByte_len (b : Bank) (j : Nat) (v : Byte) : (b.setByte j v).len = b.len := rfl
@[simp] theorem setByte_bytes (b : Bank) (j : Nat) (v : Byte) : (b.setByte j v).bytes = b.bytes.write j v := rfl
@[simp] theorem memWrite_valid (b : Bank) (j : Nat) (vals : List Byte) : (b.memWrite j vals).valid = b.valid := rfl
@[simp] theorem memWrite_len (b : Bank) (j : Nat) (vals : List Byte) : (b.memWrite j vals).len = b.len := rfl
@[simp] theorem memWrite_bytes (b : Bank) (j : Nat) (vals : List Byte) :
    (b.memWrite j vals).bytes = b.bytes.writeAll j vals := rfl
@[simp] theorem zeros_valid (len : Nat) : (Bank.zeros len).valid = true := rfl
@[simp] theorem zeros_len (len : Nat) : (Bank.zeros len).len = len := rfl
@[simp] theorem zeros_bytes (len : Nat) : (Bank.zeros len).bytes = [] := rfl
@[simp] theorem ofBytes_valid (vals : List Byte) : (Bank.ofBytes vals).valid = true := rfl
@[simp] theorem ofBytes_len (vals : List Byte) : (Bank.ofBytes vals).len = vals.length := rfl
@[simp] theorem ofBytes_bytes (vals : List Byte) : (Bank.ofBytes vals).bytes = Memory.writeAll [] 0 vals := rfl
@[simp] theorem setBitAt_valid (b : Bank) (i : Nat) (v : Bit) : (b.setBitAt i v).valid = b.valid := rfl
@[simp] theorem setBitAt_len (b : Bank) (i : Nat) (v : Bit) : (b.setBitAt i v).len = b.len := rfl
@[simp] theorem unpack_valid (b : Bank) (w : Window) : (b.unpack w).valid = b.valid := rfl
@[simp] theorem unpack_len (b : Bank) (w : Window) : (b.unpack w).len = b.len := rfl

@[simp] theorem setBitsAt_valid (b : Bank) (ws : List (Nat × Bit)) : (b.setBitsAt ws).valid = b.valid := by
  induction ws generalizing b with
  | nil => rfl
  | cons w ws ih => exact ih (b.setBitAt w.1 w.2)

@[simp] theorem setBitsAt_len (b : Bank) (ws : List (Nat × Bit)) : (b.setBitsAt ws).len = b.len := by
  induction ws generalizing b with
  | nil => rfl
  | cons w ws ih => exact ih (b.setBitAt w.1 w.2)

end Sys2Proof.Machine
end

