-- ==== Sys2Proof/Laws/Memory.lean ====
section
/-! SUPPORT. The bytes of a bank: every operation keeps the canonical form, a read after a write gives the value written, a write
leaves every other position alone, and equal reads mean equal data. -/

namespace Sys2Proof.Machine

@[simp] theorem read_nil (a : Nat) : Memory.read [] a = 0 := rfl

theorem read_cons (c : Host.Cell) (m : Memory) (a : Nat) :
    Memory.read (c :: m) a = if c.1 = a then c.2 else Memory.read m a := rfl

/-- A position below every listed one reads as an unlisted position does. -/
theorem read_eq_zero_of_lt {m : Memory} {a : Nat} (h : ∀ c ∈ m, a < c.1) : m.read a = 0 := by
  induction m with
  | nil => rfl
  | cons c m ih =>
    have hc := h c (by simp)
    rw [read_cons, if_neg (by omega), ih fun d hd => h d (by simp [hd])]

/-- A position that is not listed reads as zero. -/
theorem read_eq_zero_of_not_mem {m : Memory} {a : Nat} (h : ∀ c ∈ m, c.1 ≠ a) : m.read a = 0 := by
  induction m with
  | nil => rfl
  | cons c m ih => rw [read_cons, if_neg (h c (by simp)), ih fun d hd => h d (by simp [hd])]

theorem read_list (a : Nat) (v : Byte) (m : Memory) (h : m.read a = 0) (j : Nat) :
    (Memory.list a v m).read j = if j = a then v else m.read j := by
  unfold Memory.list
  by_cases hv : v = unlistedByte
  · rw [if_pos hv]
    split
    · subst_vars; exact h
    · rfl
  · rw [if_neg hv, read_cons]
    simp only [eq_comm]

theorem wf_tail {c : Host.Cell} {m : Memory} (h : Memory.WF (c :: m)) : Memory.WF m :=
  ⟨(List.pairwise_cons.mp h.1).2, fun d hd => h.2 d (by simp [hd])⟩

theorem wf_head {c : Host.Cell} {m : Memory} (h : Memory.WF (c :: m)) : ∀ d ∈ m, c.1 < d.1 :=
  (List.pairwise_cons.mp h.1).1

/-- What a read gives after one write, at every position. -/
theorem read_write {m : Memory} (h : m.WF) (a : Nat) (v : Byte) (j : Nat) :
    (m.write a v).read j = if j = a then v else m.read j := by
  induction m with
  | nil => exact read_list a v [] rfl j
  | cons c m ih =>
    have hm := wf_tail h
    have hlt := wf_head h
    unfold Memory.write
    split
    · rename_i hc
      rw [read_cons, read_cons, ih hm]
      by_cases hj : c.1 = j
      · have hja : j ≠ a := by omega
        simp [hj, hja]
      · simp [hj]
    · split
      · rename_i hc
        rw [read_list a v m (read_eq_zero_of_lt fun d hd => by have := hlt d hd; omega), read_cons]
        by_cases hj : j = a
        · simp [hj]
        · rw [if_neg hj, if_neg hj, if_neg (by omega)]
      · rename_i h1 h2
        refine read_list a v (c :: m) (read_eq_zero_of_lt fun d hd => ?_) j
        rcases List.mem_cons.mp hd with rfl | hd
        · omega
        · have := hlt d hd; omega

/-- Every cell of a written memory is the written cell or an old one. -/
theorem mem_write {m : Memory} {a : Nat} {v : Byte} {d : Host.Cell} (h : d ∈ m.write a v) : d = (a, v) ∨ d ∈ m := by
  induction m with
  | nil =>
    unfold Memory.write Memory.list at h
    split at h <;> simp_all
  | cons c m ih =>
    unfold Memory.write Memory.list at h
    split at h
    · rcases List.mem_cons.mp h with rfl | h
      · simp
      · rcases ih h with h | h <;> simp [h]
    · split at h <;> split at h <;> simp_all
      · rcases h with h | h <;> simp [h]

theorem wf_list {a : Nat} {v : Byte} {m : Memory} (h : m.WF) (ha : ∀ d ∈ m, a < d.1) : (Memory.list a v m).WF := by
  unfold Memory.list
  split
  · exact h
  · rename_i hv
    refine ⟨List.pairwise_cons.mpr ⟨ha, h.1⟩, fun d hd => ?_⟩
    rcases List.mem_cons.mp hd with rfl | hd
    · exact hv
    · exact h.2 d hd

/-- A write keeps the canonical form. -/
theorem wf_write {m : Memory} (h : m.WF) (a : Nat) (v : Byte) : (m.write a v).WF := by
  induction m with
  | nil => exact wf_list h (by simp)
  | cons c m ih =>
    have hm := wf_tail h
    have hlt := wf_head h
    unfold Memory.write
    split
    · rename_i hc
      refine ⟨List.pairwise_cons.mpr ⟨fun d hd => ?_, (ih hm).1⟩, fun d hd => ?_⟩
      · rcases mem_write hd with rfl | hd
        · exact hc
        · exact hlt d hd
      · rcases List.mem_cons.mp hd with rfl | hd
        · exact h.2 _ (by simp)
        · exact (ih hm).2 d hd
    · split
      · exact wf_list hm fun d hd => by have := hlt d hd; omega
      · refine wf_list h fun d hd => ?_
        rcases List.mem_cons.mp hd with rfl | hd
        · omega
        · have := hlt d hd; omega

/-- Writing several bytes keeps the canonical form. -/
theorem wf_writeAll {m : Memory} (h : m.WF) (a : Nat) (vals : List Byte) : (m.writeAll a vals).WF := by
  induction vals generalizing m a with
  | nil => exact h
  | cons v vals ih => exact ih (wf_write h a v) (a + 1)

/-- What a read gives after several bytes are written, at every position (R10). -/
theorem read_writeAll {m : Memory} (h : m.WF) (a : Nat) (vals : List Byte) (j : Nat) :
    (m.writeAll a vals).read j = if a ≤ j ∧ j < a + vals.length then vals.getD (j - a) 0 else m.read j := by
  induction vals generalizing m a with
  | nil =>
    rw [if_neg (by simp only [List.length_nil]; omega)]
    rfl
  | cons v vals ih =>
    rw [Memory.writeAll, ih (wf_write h a v), read_write h]
    simp only [List.length_cons]
    by_cases hj : j = a
    · subst hj
      rw [if_neg (by omega), if_pos rfl, if_pos (by omega)]
      simp
    · rw [if_neg hj]
      by_cases hr : a + 1 ≤ j ∧ j < a + 1 + vals.length
      · rw [if_pos hr, if_pos (by omega), show j - a = (j - (a + 1)) + 1 by omega]
        simp
      · rw [if_neg hr, if_neg (by omega)]

/-- Every cell after several bytes are written is an old one or lies in the written range. -/
theorem mem_writeAll {m : Memory} {a : Nat} {vals : List Byte} {d : Host.Cell} (h : d ∈ m.writeAll a vals) :
    (a ≤ d.1 ∧ d.1 < a + vals.length) ∨ d ∈ m := by
  induction vals generalizing m a with
  | nil => exact .inr h
  | cons v vals ih =>
    rcases ih h with h | h
    · left; simp only [List.length_cons]; omega
    · rcases mem_write h with rfl | h
      · left; simp
      · exact .inr h

/-- In canonical form, equal reads at every position mean equal data. -/
theorem memory_ext {m n : Memory} (hm : m.WF) (hn : n.WF) (h : ∀ j, m.read j = n.read j) : m = n := by
  induction m generalizing n with
  | nil =>
    cases n with
    | nil => rfl
    | cons d n =>
      have := h d.1
      rw [read_cons, if_pos rfl] at this
      exact absurd this.symm (hn.2 d (by simp))
  | cons c m ih =>
    cases n with
    | nil =>
      have := h c.1
      rw [read_cons, if_pos rfl] at this
      exact absurd this (hm.2 c (by simp))
    | cons d n =>
      have hmc := wf_head hm
      have hnd := wf_head hn
      have hkey : c.1 = d.1 := by
        rcases Nat.lt_trichotomy c.1 d.1 with hlt | heq | hgt
        · have := h c.1
          rw [read_cons, if_pos rfl, read_eq_zero_of_lt (m := d :: n) fun e he => ?_] at this
          · exact absurd this (hm.2 c (by simp))
          · rcases List.mem_cons.mp he with rfl | he
            · exact hlt
            · have := hnd e he; omega
        · exact heq
        · have := h d.1
          rw [read_cons (c := d), if_pos rfl, read_eq_zero_of_lt (m := c :: m) fun e he => ?_] at this
          · exact absurd this.symm (hn.2 d (by simp))
          · rcases List.mem_cons.mp he with rfl | he
            · exact hgt
            · have := hmc e he; omega
      have hval : c.2 = d.2 := by
        have := h c.1
        rwa [read_cons, if_pos rfl, read_cons, if_pos hkey.symm] at this
      have hrest : m = n := by
        refine ih (wf_tail hm) (wf_tail hn) fun j => ?_
        by_cases hj : c.1 = j
        · subst hj
          rw [read_eq_zero_of_lt hmc, read_eq_zero_of_lt (fun e he => hkey ▸ hnd e he)]
        · have := h j
          rwa [read_cons, if_neg hj, read_cons, if_neg (hkey ▸ hj)] at this
      rw [hrest, Prod.ext hkey hval]

/-! ### Banks -/

/-- `B[j]` after `B[a] <- v` (R10). -/
theorem byte_setByte {b : Bank} (h : b.bytes.WF) (a : Nat) (v : Byte) (j : Nat) :
    (b.setByte a v).byte j = if j = a then v else b.byte j := read_write h a v j

/-- `B[j]` after `MemWrite` (R10). -/
theorem byte_memWrite {b : Bank} (h : b.bytes.WF) (a : Nat) (vals : List Byte) (j : Nat) :
    (b.memWrite a vals).byte j = if a ≤ j ∧ j < a + vals.length then vals.getD (j - a) 0 else b.byte j :=
  read_writeAll h a vals j

@[simp] theorem byte_zeros (len j : Nat) : (Bank.zeros len).byte j = 0 := rfl

/-- `B[j]` of a bank made by construct (R101). -/
theorem byte_ofBytes (vals : List Byte) (j : Nat) : (Bank.ofBytes vals).byte j = vals.getD j 0 := by
  show Memory.read (Memory.writeAll [] 0 vals) j = _
  rw [read_writeAll (by simp [Memory.WF])]
  by_cases hj : j < vals.length
  · simp [hj]
  · simp [hj]

/-- A position at or beyond `LEN` holds nothing (R31). -/
theorem byte_beyond_len {cap : Nat} {b : Bank} (h : b.WF cap) {j : Nat} (hj : b.len ≤ j) : b.byte j = 0 :=
  read_eq_zero_of_not_mem fun c hc e => by have := h.2.2 c hc; omega

theorem bank_wf_setByte {cap : Nat} {b : Bank} (h : b.WF cap) {a : Nat} (ha : a < b.len) (v : Byte) :
    (b.setByte a v).WF cap := by
  refine ⟨h.1, wf_write h.2.1 a v, fun c hc => ?_⟩
  rcases mem_write hc with rfl | hc
  · exact ha
  · exact h.2.2 c hc

theorem bank_wf_memWrite {cap : Nat} {b : Bank} (h : b.WF cap) {a : Nat} {vals : List Byte}
    (ha : a + vals.length ≤ b.len) : (b.memWrite a vals).WF cap := by
  refine ⟨h.1, wf_writeAll h.2.1 a vals, fun c hc => ?_⟩
  rcases mem_writeAll hc with hc | hc
  · simp only [memWrite_len]; omega
  · exact h.2.2 c hc

theorem bank_wf_zeros {cap len : Nat} (h : len ≤ cap) : (Bank.zeros len).WF cap :=
  ⟨h, by simp [Memory.WF], by simp⟩

theorem bank_wf_ofBytes {cap : Nat} {vals : List Byte} (h : vals.length ≤ cap) : (Bank.ofBytes vals).WF cap :=
  bank_wf_memWrite (bank_wf_zeros h) (by simp)

/-- In canonical form, two banks with the same `VALID`, `LEN` and bytes are equal. -/
theorem bank_ext {b c : Bank} (hb : b.bytes.WF) (hc : c.bytes.WF) (hv : b.valid = c.valid) (hl : b.len = c.len)
    (h : ∀ j, b.byte j = c.byte j) : b = c := by
  have hm : b.bytes = c.bytes := memory_ext hb hc h
  cases b; cases c
  simp_all

end Sys2Proof.Machine
end

