-- ==== Sys2Proof/Laws/Bits.lean ====
section
/-! SUPPORT. Bits of bytes, the checksum and the window: what each primitive of R120, R161 and R181 gives, bit by bit or byte by
byte. -/

namespace Sys2Proof.Machine

/-! ### Single bits (R120) -/

/-- `GetBitAt(i)` is bit `i % 8` of byte `i / 8` (R41). -/
theorem bitAt_eq (b : Bank) (i : Nat) : b.bitAt i = if b.bitSet i then 1 else 0 := by
  have h7 : i &&& 7 = i % 8 := Nat.and_two_pow_sub_one_eq_mod i 3
  have h3 : i >>> 3 = i / 8 := Nat.shiftRight_eq_div_pow i 3
  unfold Bank.bitAt Bank.bitSet
  rw [h7, h3]
  apply BitVec.eq_of_getLsbD_eq
  intro k hk
  obtain rfl : k = 0 := by omega
  cases h : (b.byte (i / 8)).getLsbD (i % 8) <;> simp [h]

/-- The result word of a bit (R75). -/
theorem bitWord_bitAt (b : Bank) (i : Nat) : bitWord (b.bitAt i) = boolWord (b.bitSet i) := by
  rw [bitAt_eq]
  unfold boolWord
  cases b.bitSet i <;> rfl

/-- Every bit of a byte after one of its bits is replaced (R120). -/
theorem getLsbD_replaceBit (old : Byte) {n : Nat} (hn : n < 8) (v : Bit) (k : Nat) :
    (replaceBit old n v).getLsbD k = if k = n then decide (v = 1) else old.getLsbD k := by
  by_cases hk : k < 8
  · have key : ∀ (o : Byte) (v : Bit) (n k : Fin 8),
        (replaceBit o n.1 v).getLsbD k.1 = if k.1 = n.1 then decide (v = 1) else o.getLsbD k.1 := by
      intro o v n k
      have hv : v = 0 ∨ v = 1 := by revert v; decide
      rcases hv with rfl | rfl <;> revert n k <;>
        simp only [replaceBit, BitVec.getLsbD_or, BitVec.getLsbD_and] <;>
        intro n k <;> fin_cases n <;> fin_cases k <;> simp
    exact key old v ⟨n, hn⟩ ⟨k, hk⟩
  · rw [BitVec.getLsbD_of_ge _ _ (by omega), if_neg (by omega), BitVec.getLsbD_of_ge _ _ (by omega)]

/-- Every bit of a bank after one of its bits is written (R120). -/
theorem bitSet_setBitAt {b : Bank} (h : b.bytes.WF) (i : Nat) (v : Bit) (n : Nat) :
    (b.setBitAt i v).bitSet n = if n = i then decide (v = 1) else b.bitSet n := by
  have h7 : i &&& 7 = i % 8 := Nat.and_two_pow_sub_one_eq_mod i 3
  have h3 : i >>> 3 = i / 8 := Nat.shiftRight_eq_div_pow i 3
  unfold Bank.setBitAt Bank.bitSet
  rw [h7, h3, byte_setByte h]
  by_cases hb : n / 8 = i / 8
  · rw [if_pos hb, getLsbD_replaceBit _ (Nat.mod_lt i (by omega)), hb]
    by_cases hn : n = i
    · subst hn; simp
    · rw [if_neg (by omega), if_neg hn]
  · rw [if_neg hb, if_neg (by rintro rfl; exact hb rfl)]

/-- A bit write keeps the canonical form. -/
theorem wf_setBitAt {b : Bank} (h : b.bytes.WF) (i : Nat) (v : Bit) : (b.setBitAt i v).bytes.WF := wf_write h _ _

theorem bank_wf_setBitAt {cap : Nat} {b : Bank} (h : b.WF cap) {i : Nat} (hi : i < 8 * b.len) (v : Bit) :
    (b.setBitAt i v).WF cap :=
  bank_wf_setByte h (by rw [Nat.shiftRight_eq_div_pow]; omega) _

/-- A list of bit writes keeps the canonical form. -/
theorem wf_setBitsAt {b : Bank} (h : b.bytes.WF) (ws : List (Nat × Bit)) : (b.setBitsAt ws).bytes.WF := by
  induction ws generalizing b with
  | nil => exact h
  | cons w ws ih => exact ih (wf_setBitAt h w.1 w.2)

theorem bank_wf_setBitsAt {cap : Nat} {b : Bank} (h : b.WF cap) {ws : List (Nat × Bit)}
    (hw : ∀ w ∈ ws, w.1 < 8 * b.len) : (b.setBitsAt ws).WF cap := by
  induction ws generalizing b with
  | nil => exact h
  | cons w ws ih =>
    exact ih (bank_wf_setBitAt h (hw w (by simp)) w.2) fun x hx => by
      simpa using hw x (by simp [hx])

/-! ### The window (R181) -/

/-- The window bytes read back from a 128-bit value; every other byte is kept (R181). -/
theorem byte_unpack {b : Bank} (h : b.bytes.WF) (w : Window) (j : Nat) :
    (b.unpack w).byte j = if j < 16 then (w >>> (8 * (15 - j))).setWidth 8 else b.byte j := by
  unfold Bank.unpack
  rw [byte_memWrite h]
  simp only [Config.winLo, Config.winHi, windowShift, List.length_map, List.length_range']
  by_cases hj : j < 16
  · rw [if_pos (by omega), if_pos hj, List.getD_eq_getElem?_getD, List.getElem?_map,
      List.getElem?_range' (by omega)]
    simp
  · rw [if_neg (by omega), if_neg hj]

/-- `Unpack` keeps the canonical form. -/
theorem wf_unpack {b : Bank} (h : b.bytes.WF) (w : Window) : (b.unpack w).bytes.WF := wf_writeAll h _ _

theorem bank_wf_unpack {cap : Nat} {b : Bank} (h : b.WF cap) (hl : 16 ≤ b.len) (w : Window) : (b.unpack w).WF cap :=
  bank_wf_memWrite h (by simp [Config.winLo, Config.winHi]; omega)

/-- Bit `8 * (15 - j) + n` of the window is bit `n` of byte `j` (R42, R181). -/
theorem getLsbD_window (b : Bank) {j n : Nat} (hj : j < 16) (hn : n < 8) :
    b.window.getLsbD (8 * (15 - j) + n) = (b.byte j).getLsbD n := by
  have hfold : b.window = (List.range 16).foldl (fun w k => w ||| ((b.byte k).setWidth 128 <<< (8 * (15 - k)))) 0 := by
    unfold Bank.window windowShift
    rw [List.foldl_map]
    rfl
  have hbits : ∀ (ks : List Nat) (w : Window) (i : Nat), i < 128 →
      (ks.foldl (fun w k => w ||| ((b.byte k).setWidth 128 <<< (8 * (15 - k)))) w).getLsbD i =
        (w.getLsbD i || ks.any fun k => decide (8 * (15 - k) ≤ i) && (b.byte k).getLsbD (i - 8 * (15 - k))) := by
    intro ks
    induction ks with
    | nil => intro w i _; simp
    | cons k ks ih =>
      intro w i hi
      rw [List.foldl_cons, ih _ _ hi]
      simp only [BitVec.getLsbD_or, BitVec.getLsbD_shiftLeft, BitVec.getLsbD_setWidth, List.any_cons, Bool.or_assoc]
      congr 2
      have : i - 8 * (15 - k) < 128 := by omega
      by_cases hk : 8 * (15 - k) ≤ i
      · simp [hi, this, hk]
      · simp [hk, Nat.not_le.mp hk]
  rw [hfold, hbits _ _ _ (by omega)]
  simp only [BitVec.ofNat_eq_ofNat, BitVec.getLsbD_zero, Bool.false_or]
  rw [Bool.eq_iff_iff, List.any_eq_true]
  constructor
  · rintro ⟨k, hk, h⟩
    rw [List.mem_range] at hk
    rw [Bool.and_eq_true, decide_eq_true_eq] at h
    obtain ⟨hle, hbit⟩ := h
    have hlt := BitVec.lt_of_getLsbD hbit
    obtain rfl : k = j := by omega
    rwa [show 8 * (15 - k) + n - 8 * (15 - k) = n by omega] at hbit
  · intro h
    exact ⟨j, List.mem_range.mpr hj, by simp [h]⟩

end Sys2Proof.Machine
end

