-- ==== Sys2Proof/Laws/Decode.lean ====
section
/-! SUPPORT. The fields of the words that the encoder writes, and the opcode map in both directions. -/

namespace Sys2Proof

/-! ### The opcode map -/

/-- Every assigned opcode selects its command (R67). -/
@[simp] theorem opcodeOf_code (o : Opcode) : opcodeOf o.code = some o := by cases o <;> decide

/-- The command an opcode field selects has that opcode (R67). -/
theorem code_of_opcodeOf {c : BitVec 8} {o : Opcode} (h : opcodeOf c = some o) : o.code = c := by
  have := List.find?_some h
  simpa using this

/-! ### Fields of the header and the operand word -/

@[simp] theorem fieldOp_headerWord (o : Opcode) (bk : BankNo) (aux : BitVec 4) (a : Half) :
    fieldOp (headerWord o bk aux a) = o.code := by
  apply BitVec.eq_of_getLsbD_eq
  intro i hi
  simp only [fieldOp, headerWord, BitVec.getLsbD_extractLsb', BitVec.getLsbD_append]
  rw [if_neg (by omega), if_neg (by omega), if_neg (by omega)]
  simp [hi, show 24 + i - 16 - 4 - 4 = i by omega]

@[simp] theorem fieldBk_headerWord (o : Opcode) (bk : BankNo) (aux : BitVec 4) (a : Half) :
    fieldBk (headerWord o bk aux a) = bk := by
  apply BitVec.eq_of_getLsbD_eq
  intro i hi
  simp only [fieldBk, headerWord, BitVec.getLsbD_extractLsb', BitVec.getLsbD_append]
  rw [if_neg (by omega), if_neg (by omega), if_pos (by omega)]
  simp [hi, show 20 + i - 16 - 4 = i by omega]

@[simp] theorem fieldAux_headerWord (o : Opcode) (bk : BankNo) (aux : BitVec 4) (a : Half) :
    fieldAux (headerWord o bk aux a) = aux := by
  apply BitVec.eq_of_getLsbD_eq
  intro i hi
  simp only [fieldAux, headerWord, BitVec.getLsbD_extractLsb', BitVec.getLsbD_append]
  rw [if_neg (by omega), if_pos (by omega)]
  simp [hi]

@[simp] theorem fieldA_headerWord (o : Opcode) (bk : BankNo) (aux : BitVec 4) (a : Half) :
    fieldA (headerWord o bk aux a) = a := by
  apply BitVec.eq_of_getLsbD_eq
  intro i hi
  simp only [fieldA, headerWord, BitVec.getLsbD_extractLsb', BitVec.getLsbD_append]
  rw [if_pos (by omega)]
  simp [hi]

@[simp] theorem fieldWb_operandWord (wb wc : Half) : fieldWb (operandWord wb wc) = wb := by
  apply BitVec.eq_of_getLsbD_eq
  intro i hi
  simp only [fieldWb, operandWord, BitVec.getLsbD_extractLsb', BitVec.getLsbD_append]
  rw [if_neg (by omega)]
  simp [hi]

@[simp] theorem fieldWc_operandWord (wb wc : Half) : fieldWc (operandWord wb wc) = wc := by
  apply BitVec.eq_of_getLsbD_eq
  intro i hi
  simp only [fieldWc, operandWord, BitVec.getLsbD_extractLsb', BitVec.getLsbD_append]
  rw [if_pos (by omega)]
  simp [hi]

/-- A header is its four fields (R61). -/
theorem headerWord_fields (h : Word) {o : Opcode} (ho : o.code = fieldOp h) :
    headerWord o (fieldBk h) (fieldAux h) (fieldA h) = h := by
  apply BitVec.eq_of_getLsbD_eq
  intro i hi
  simp only [headerWord, ho, fieldOp, fieldBk, fieldAux, fieldA, BitVec.getLsbD_append, BitVec.getLsbD_extractLsb']
  by_cases h1 : i < 16
  · simp [h1]
  · by_cases h2 : i < 20
    · simp [h1, show i - 16 < 4 by omega, show 16 + (i - 16) = i by omega]
    · by_cases h3 : i < 24
      · simp [h1, show ¬ i - 16 < 4 by omega, show i - 16 - 4 < 4 by omega, show 20 + (i - 16 - 4) = i by omega]
      · simp [h1, show ¬ i - 16 < 4 by omega, show ¬ i - 16 - 4 < 4 by omega, show i - 16 - 4 - 4 < 8 by omega,
          show 24 + (i - 16 - 4 - 4) = i by omega]

/-- An operand word is its two fields (R62). -/
theorem operandWord_fields (w : Word) : operandWord (fieldWb w) (fieldWc w) = w := by
  apply BitVec.eq_of_getLsbD_eq
  intro i hi
  simp only [operandWord, fieldWb, fieldWc, BitVec.getLsbD_append, BitVec.getLsbD_extractLsb']
  by_cases h1 : i < 16
  · simp [h1]
  · simp [h1, show i - 16 < 16 by omega, show 16 + (i - 16) = i by omega]

/-! ### Payload words -/

@[simp] theorem indexField_indexWord (i : Half) : indexField (indexWord i) = i := by
  apply BitVec.eq_of_getLsbD_eq
  intro k hk
  simp [indexField, indexWord, hk, show k < 32 by omega]

@[simp] theorem bitField_bitWord (v : Bit) : bitField (bitWord v) = v := by
  apply BitVec.eq_of_getLsbD_eq
  intro k hk
  simp [bitField, bitWord, hk, show k < 32 by omega]

@[simp] theorem byteField_byteWord (v : Byte) : byteField (byteWord v) = v := by
  apply BitVec.eq_of_getLsbD_eq
  intro k hk
  simp [byteField, byteWord, hk, show k < 32 by omega]

@[simp] theorem indexWordClear_indexWord (i : Half) : indexWordClear (indexWord i) = true := by
  simp only [indexWordClear, beq_iff_eq]
  apply BitVec.eq_of_getLsbD_eq
  intro k hk
  simp [indexWord]

@[simp] theorem bitWordClear_bitWord (v : Bit) : bitWordClear (bitWord v) = true := by
  simp only [bitWordClear, beq_iff_eq]
  apply BitVec.eq_of_getLsbD_eq
  intro k hk
  simp [bitWord]

@[simp] theorem byteWordClear_byteWord (v : Byte) : byteWordClear (byteWord v) = true := by
  simp only [byteWordClear, beq_iff_eq]
  apply BitVec.eq_of_getLsbD_eq
  intro k hk
  simp [byteWord]

/-- An index word with clear reserved bits is its index (R63). -/
theorem indexWord_indexField {w : Word} (h : indexWordClear w = true) : indexWord (indexField w) = w := by
  simp only [indexWordClear, beq_iff_eq] at h
  apply BitVec.eq_of_getLsbD_eq
  intro k hk
  by_cases h1 : k < 16
  · simp [indexWord, indexField, h1, hk]
  · have := congrArg (fun x => x.getLsbD (k - 16)) h
    simp only [BitVec.getLsbD_extractLsb', show 16 + (k - 16) = k by omega] at this
    simp [show k - 16 < 16 by omega] at this
    simp [indexWord, indexField, h1, this]

/-- A bit-value word with clear reserved bits is its bit (R63). -/
theorem bitWord_bitField {w : Word} (h : bitWordClear w = true) : bitWord (bitField w) = w := by
  simp only [bitWordClear, beq_iff_eq] at h
  apply BitVec.eq_of_getLsbD_eq
  intro k hk
  by_cases h1 : k < 1
  · simp [bitWord, bitField, h1, hk]
  · have := congrArg (fun x => x.getLsbD (k - 1)) h
    simp only [BitVec.getLsbD_extractLsb', show 1 + (k - 1) = k by omega] at this
    simp [show k - 1 < 31 by omega] at this
    simp [bitWord, bitField, this]

/-- A byte-value word with clear reserved bits is its byte (R64). -/
theorem byteWord_byteField {w : Word} (h : byteWordClear w = true) : byteWord (byteField w) = w := by
  simp only [byteWordClear, beq_iff_eq] at h
  apply BitVec.eq_of_getLsbD_eq
  intro k hk
  by_cases h1 : k < 8
  · simp [byteWord, byteField, h1, hk]
  · have := congrArg (fun x => x.getLsbD (k - 8)) h
    simp only [BitVec.getLsbD_extractLsb', show 8 + (k - 8) = k by omega] at this
    simp [show k - 8 < 24 by omega] at this
    simp [byteWord, byteField, h1, this]

/-- setByte's operand word has the form of a byte-value word: `WB` and `WC[15:8]` zero, `WC[7:0]` the byte (R62). -/
@[simp] theorem operandWord_byte (v : Byte) : operandWord (0#16) (v.setWidth 16) = byteWord v := by
  apply BitVec.eq_of_getLsbD_eq
  intro i hi
  simp only [operandWord, byteWord, BitVec.getLsbD_append, BitVec.getLsbD_setWidth]
  split
  · simp [hi, show i < 16 by omega]
  · simp [BitVec.getLsbD_of_ge v i (by omega)]

/-- `AUX[3:1]` of an encoded setBit is zero (R61). -/
@[simp] theorem setBit_aux_clear (v : Bit) : (v.setWidth 4).extractLsb' 1 3 = 0#3 := by revert v; decide

/-- `AUX[0]` of an encoded setBit is its value (R61). -/
@[simp] theorem setBit_aux_value (v : Bit) : (v.setWidth 4).extractLsb' 0 1 = v := by revert v; decide

/-! ### Counts -/

/-- The count field of a list that fits declares its length (R7). -/
theorem toNat_countField {α : Type} {l : List α} (h : l.length < 65536) : (countField l).toNat = l.length := by
  rw [countField, BitVec.toNat_ofNat, Nat.mod_eq_of_lt h]

/-- The count field of a list of `n` elements, `n` a field's value, is that value (R7). -/
theorem countField_of_length {α : Type} {l : List α} {n : Half} (h : l.length = n.toNat) : countField l = n := by
  rw [countField, h, BitVec.ofNat_toNat, BitVec.setWidth_eq]

/-! ### The decoder, by the outcome of its checks -/

theorem decode_nil : decode [] = .reject .malformedLength := rfl

/-- Common check 2 of R77. -/
theorem decode_illegal {h : Word} {rest : Packet} (ho : opcodeOf (fieldOp h) = none) :
    decode (h :: rest) = .reject .illegalOpcode := by
  unfold decode; simp only [ho]

/-- Common check 3 of R77. -/
theorem decode_malformed {h : Word} {rest : Packet} {o : Opcode} (ho : opcodeOf (fieldOp h) = some o)
    (hl : o.declaredLength (h :: rest) ≠ some (rest.length + 1)) : decode (h :: rest) = .reject .malformedLength := by
  unfold decode; simp only [ho]; rw [if_pos hl]

/-- Common check 4 of R77. -/
theorem decode_reserved {h : Word} {rest : Packet} {o : Opcode} (ho : opcodeOf (fieldOp h) = some o)
    (hl : o.declaredLength (h :: rest) = some (rest.length + 1))
    (hr : (o.headerClear h && o.restClear h rest) = false) : decode (h :: rest) = .reject .reservedNonzero := by
  unfold decode; simp only [ho]; rw [if_neg (not_not.mpr hl), if_neg (by simp [hr])]

/-- A packet that passes the common checks 1 to 4 of R77 carries a command (R65). -/
theorem decode_accept {h : Word} {rest : Packet} {o : Opcode} (ho : opcodeOf (fieldOp h) = some o)
    (hl : o.declaredLength (h :: rest) = some (rest.length + 1))
    (hr : (o.headerClear h && o.restClear h rest) = true) : decode (h :: rest) = .accept (o.assemble h rest) := by
  unfold decode; simp only [ho]; rw [if_neg (not_not.mpr hl), if_pos hr]

/-- All that the decoder can have found in a packet it accepts. -/
theorem decode_eq_accept {p : Packet} {i : Instr} (hd : decode p = .accept i) :
    ∃ h rest o, p = h :: rest ∧ opcodeOf (fieldOp h) = some o ∧
      o.declaredLength (h :: rest) = some (rest.length + 1) ∧ o.headerClear h = true ∧ o.restClear h rest = true ∧
      i = o.assemble h rest := by
  cases p with
  | nil => cases hd
  | cons h rest =>
    cases ho : opcodeOf (fieldOp h) with
    | none => rw [decode_illegal ho] at hd; cases hd
    | some o =>
      by_cases hl : o.declaredLength (h :: rest) = some (rest.length + 1)
      · cases hr : (o.headerClear h && o.restClear h rest) with
        | false => rw [decode_reserved ho hl hr] at hd; cases hd
        | true =>
          rw [decode_accept ho hl hr] at hd
          rw [Bool.and_eq_true] at hr
          exact ⟨h, rest, o, rfl, ho, hl, hr.1, hr.2, by cases hd; rfl⟩
      · rw [decode_malformed ho hl] at hd; cases hd

end Sys2Proof
end

