-- ==== Sys2Proof/Laws/Operands.lean ====
section
/-! SUPPORT. What each operand check answers, once. -/

namespace Sys2Proof.Machine

@[simp] theorem bitInBounds_eq_true (len i : Nat) : bitInBounds len i = true ↔ i < 8 * len := by simp [bitInBounds]

/-- Every index in bounds: no status code (R123, R124). -/
theorem bitsCheck_none {len : Nat} {idx : List Nat} (h : ∀ i ∈ idx, i < 8 * len) : bitsCheck len idx = none := by
  simp only [bitsCheck, List.all_eq_true, bitInBounds_eq_true]
  exact if_pos h

/-- Any index out of bounds: OUT_OF_BOUNDS (R120). -/
theorem bitsCheck_some {len : Nat} {idx : List Nat} (h : ∃ i ∈ idx, 8 * len ≤ i) :
    bitsCheck len idx = some .outOfBounds := by
  obtain ⟨i, hi, hl⟩ := h
  simp only [bitsCheck, List.all_eq_true, bitInBounds_eq_true]
  exact if_neg fun hall => by have := hall i hi; omega

/-- A range in order and inside the bank: no status code (R140). -/
theorem rangeCheck_none {len first last : Nat} (h : first ≤ last) (hl : last < len) : rangeCheck len first last = none := by
  rw [rangeCheck, if_neg (by omega), if_neg (by omega)]

/-- Bounds out of order: RANGE_ORDER, whatever else holds (R140). -/
theorem rangeCheck_order {len first last : Nat} (h : last < first) : rangeCheck len first last = some .rangeOrder := by
  rw [rangeCheck, if_pos h]

/-- A range in order that leaves the bank: OUT_OF_BOUNDS (R140). -/
theorem rangeCheck_bounds {len first last : Nat} (h : first ≤ last) (hl : len ≤ last) :
    rangeCheck len first last = some .outOfBounds := by
  rw [rangeCheck, if_neg (by omega), if_pos (by omega)]

/-- A range that passes is in order and inside the bank. -/
theorem rangeCheck_eq_none {len first last : Nat} (h : rangeCheck len first last = none) : first ≤ last ∧ last < len := by
  unfold rangeCheck at h
  split at h
  · cases h
  · split at h
    · cases h
    · omega

/-- A position inside the bank: no status code (R160, R180). -/
theorem positionCheck_none {len pos : Nat} (h : pos < len) : positionCheck len pos = none := if_neg (by omega)

/-- A position outside the bank: OUT_OF_BOUNDS (R160, R180). -/
theorem positionCheck_some {len pos : Nat} (h : len ≤ pos) : positionCheck len pos = some .outOfBounds := if_pos h

@[simp] theorem afterCheck_none {α : Type} (body : Except Status α) : afterCheck none body = body := rfl
@[simp] theorem afterCheck_some {α : Type} (c : Status) (body : Except Status α) :
    afterCheck (some c) body = .error c := rfl

/-- A guarded body that answers a result passed its check. -/
theorem afterCheck_ok {α : Type} {check : Option Status} {body : Except Status α} {r : α}
    (h : afterCheck check body = .ok r) : check = none ∧ body = .ok r := by
  cases check with
  | none => exact ⟨rfl, h⟩
  | some c => cases h

end Sys2Proof.Machine
end

