-- ==== Sys2Proof/Laws/Ops.lean ====
section
/-! SUPPORT. What the shared operations of a command can do, once: the words of a response, the two ways a command ends, and the
cases of a command on a bank and of a constructing command. -/

namespace Sys2Proof.Machine

/-! ### Responses -/

/-- An error's response is its code in one word (R75). -/
theorem errorPacket_eq (c : Status) : errorPacket c = [c.code.setWidth 32] := by cases c <;> rfl

/-- The response of a completed command is `RN` in bits 31:16 of the first word, then the results (R75). -/
theorem okPacket_eq (results : List Word) :
    okPacket results = BitVec.ofNat 32 (results.length * 65536) :: results := by
  have h : statusWord .ok results.length = BitVec.ofNat 32 (results.length * 65536) := by
    apply BitVec.eq_of_toNat_eq
    simp only [statusWord, Status.code, BitVec.toNat_append, BitVec.toNat_ofNat]
    simp only [Nat.shiftLeft_eq]
    simp
    omega
  rw [okPacket, h]

theorem respond_okPacket (s : State) (results : List Word) :
    s.respond (okPacket results) = s.answered s.banks (BitVec.ofNat 32 (results.length * 65536) :: results) := by
  rw [State.respond, okPacket_eq]; rfl

theorem respond_errorPacket (s : State) (c : Status) :
    s.respond (errorPacket c) = s.answered s.banks [c.code.setWidth 32] := by
  rw [State.respond, errorPacket_eq]; rfl

/-- Raising a status code: the response carries it and every bank is kept (R11). -/
theorem raise_eq (c : Status) (s : State) : raise c s = .next (s.answered s.banks [c.code.setWidth 32]) := by
  rw [raise, respond_errorPacket]

/-- Completing: the response carries the results and the banks are those of the state given (R11). -/
theorem complete_eq (results : List Word) (s : State) :
    complete results s = .next (s.answered s.banks (BitVec.ofNat 32 (results.length * 65536) :: results)) := by
  rw [complete, respond_okPacket]

/-! ### `onBank` -/

variable {s : State} {bk : BankNo} {body : Bank → Except Status (Bank × List Word)}

theorem hasBank_iff : s.hasBank bk = true ↔ bk.toNat < s.cfg.nb := by simp [State.hasBank]

/-- The common check 5 of R77. -/
theorem onBank_badBank (h : s.cfg.nb ≤ bk.toNat) : onBank bk body s = raise .badBank s := by
  have : s.hasBank bk = false := by simp [State.hasBank, h]
  rw [onBank, if_pos this]

/-- The common check 7 of R77. -/
theorem onBank_notConstructed (h : bk.toNat < s.cfg.nb) (hv : (s.bank bk).valid = false) :
    onBank bk body s = raise .notConstructed s := by
  rw [onBank, if_neg (by simp [hasBank_iff.mpr h]), if_pos hv]

/-- A body that raises a status code. -/
theorem onBank_error (h : bk.toNat < s.cfg.nb) (hv : (s.bank bk).valid = true) {c : Status}
    (hb : body (s.bank bk) = .error c) : onBank bk body s = raise c s := by
  rw [onBank, if_neg (by simp [hasBank_iff.mpr h]), if_neg (by simp [hv]), hb]

/-- A body that answers a bank and results. -/
theorem onBank_ok (h : bk.toNat < s.cfg.nb) (hv : (s.bank bk).valid = true) {b : Bank} {results : List Word}
    (hb : body (s.bank bk) = .ok (b, results)) : onBank bk body s = complete results (s.setBank bk b) := by
  rw [onBank, if_neg (by simp [hasBank_iff.mpr h]), if_neg (by simp [hv]), hb]

/-- All that a command on a bank can do: it raises a status code, or the bank exists and is constructed, the body answers, and its
answer is committed. -/
theorem onBank_cases (bk : BankNo) (body : Bank → Except Status (Bank × List Word)) (s : State) :
    (∃ c, onBank bk body s = raise c s ∧ (c = .badBank ∨ c = .notConstructed ∨ body (s.bank bk) = .error c)) ∨
    (∃ b results, bk.toNat < s.cfg.nb ∧ (s.bank bk).valid = true ∧ body (s.bank bk) = .ok (b, results) ∧
      onBank bk body s = complete results (s.setBank bk b)) := by
  by_cases h : bk.toNat < s.cfg.nb
  · cases hv : (s.bank bk).valid with
    | false => exact .inl ⟨.notConstructed, onBank_notConstructed h hv, by simp⟩
    | true =>
      cases hb : body (s.bank bk) with
      | error c => exact .inl ⟨c, onBank_error h hv hb, by simp⟩
      | ok r => exact .inr ⟨r.1, r.2, h, rfl, rfl, onBank_ok h hv hb⟩
  · exact .inl ⟨.badBank, onBank_badBank (by omega), by simp⟩

/-! ### `constructBank` -/

variable {made : Except Status Bank}

/-- The common check 5 of R77. -/
theorem constructBank_badBank (h : s.cfg.nb ≤ bk.toNat) : constructBank bk made s = raise .badBank s := by
  have : s.hasBank bk = false := by simp [State.hasBank, h]
  unfold constructBank; rw [if_pos this]

/-- A constructing command whose own check fails. -/
theorem constructBank_error (h : bk.toNat < s.cfg.nb) (c : Status) : constructBank bk (.error c) s = raise c s := by
  unfold constructBank; rw [if_neg (by simp [hasBank_iff.mpr h])]

/-- A constructing command that completes. -/
theorem constructBank_ok (h : bk.toNat < s.cfg.nb) (b : Bank) :
    constructBank bk (.ok b) s = complete [] (s.setBank bk b) := by
  unfold constructBank; rw [if_neg (by simp [hasBank_iff.mpr h])]

/-- All that a constructing command can do. -/
theorem constructBank_cases (bk : BankNo) (made : Except Status Bank) (s : State) :
    (∃ c, constructBank bk made s = raise c s ∧ (c = .badBank ∨ made = .error c)) ∨
    (∃ b, bk.toNat < s.cfg.nb ∧ made = .ok b ∧ constructBank bk made s = complete [] (s.setBank bk b)) := by
  by_cases h : bk.toNat < s.cfg.nb
  · cases made with
    | error c => exact .inl ⟨c, constructBank_error h c, .inr rfl⟩
    | ok b => exact .inr ⟨b, h, rfl, constructBank_ok h b⟩
  · exact .inl ⟨.badBank, constructBank_badBank (by omega), .inl rfl⟩

end Sys2Proof.Machine
end

