-- ==== Sys2Proof/Laws/Exec.lean ====
section
/-! SUPPORT. What a command can do, once for all sixteen: it raises a status code and keeps every bank, or it commits one bank. -/

namespace Sys2Proof.Machine

/-- The status codes that a command of its own can raise (R76, R201): not OK, not a host adapter's, not the decoder's. -/
def Status.raised : Status → Bool
  | .bitsMismatch | .bytesMismatch | .outOfBounds | .rangeOrder | .checksum | .copySource | .badBank | .notConstructed
  | .capacity => true
  | .ok | .missingArg | .notANumber | .notAnArray | .notNumbers | .illegalOpcode | .reservedNonzero | .malformedLength => false

/-- What a command leaves in its bank when it completes. -/
structure Committed (i : Instr) (s : State) (b : Bank) : Prop where
  /-- The bank exists (R77, check 5). -/
  exists_ : i.bank.toNat < s.cfg.nb
  /-- The bank is constructed (R23). -/
  valid : b.valid = true
  /-- A command that constructs nothing found the bank constructed and keeps its length (R22, R23). -/
  kept : i.constructs = false → (s.bank i.bank).valid = true ∧ b.len = (s.bank i.bank).len
  /-- A command that only reads keeps the bank (R48). -/
  read : i.reads = true → b = s.bank i.bank
  /-- The invariant of the bank is kept. -/
  wf : s.WF → b.WF s.cfg.cap

/-- How a command ends: it raises a status code of its own and keeps every bank, or it commits its own bank. -/
def Ends (i : Instr) (s : State) (o : Host.Outcome State Fault Refusal) : Prop :=
  (∃ c, o = raise c s ∧ c.raised = true) ∨
  (∃ b rs, o = complete rs (s.setBank i.bank b) ∧ Committed i s b)

theorem bank_wf {s : State} (h : s.WF) (k : BankNo) : (s.bank k).WF s.cfg.cap := by
  unfold State.bank
  rw [List.getD_eq_getElem?_getD]
  cases hk : s.banks[k.toNat]? with
  | none => exact ⟨Nat.zero_le _, ⟨List.Pairwise.nil, by simp [Bank.unconstructed]⟩, by simp [Bank.unconstructed]⟩
  | some b => exact h.2.2 b (List.mem_of_getElem? hk)

/-- What the body of a command on a bank must give for the command to be one of the two cases. -/
theorem onBank_committed {i : Instr} {s : State} {body : Bank → Except Status (Bank × List Word)}
    (hraise : ∀ b c, body b = .error c → c.raised = true)
    (hread : ∀ b b' rs, body b = .ok (b', rs) → i.reads = true → b' = b)
    (hkeep : ∀ b b' rs, body b = .ok (b', rs) → b'.valid = b.valid ∧ b'.len = b.len)
    (hwf : ∀ b b' rs, body b = .ok (b', rs) → b.WF s.cfg.cap → b'.WF s.cfg.cap) :
    Ends i s (onBank i.bank body s) := by
  rcases onBank_cases i.bank body s with ⟨c, he, hc⟩ | ⟨b, rs, hlt, hv, hb, he⟩
  · refine .inl ⟨c, he, ?_⟩
    rcases hc with rfl | rfl | hc
    · rfl
    · rfl
    · exact hraise _ _ hc
  · obtain ⟨h1, h2⟩ := hkeep _ _ _ hb
    exact .inr ⟨b, rs, he, hlt, h1.trans hv, fun _ => ⟨hv, h2⟩, fun hr => hread _ _ _ hb hr,
      fun hs => hwf _ _ _ hb (bank_wf hs _)⟩

/-- What the bank made by a constructing command must be for the command to be one of the two cases. -/
theorem constructBank_committed {i : Instr} {s : State} {made : Except Status Bank}
    (hi : i.constructs = true) (hr : i.reads = false)
    (hraise : ∀ c, made = .error c → c.raised = true)
    (hvalid : ∀ b, made = .ok b → b.valid = true)
    (hwf : ∀ b, made = .ok b → s.WF → b.WF s.cfg.cap) :
    Ends i s (constructBank i.bank made s) := by
  rcases constructBank_cases i.bank made s with ⟨c, he, hc⟩ | ⟨b, hlt, hb, he⟩
  · refine .inl ⟨c, he, ?_⟩
    rcases hc with rfl | hc
    · rfl
    · exact hraise _ hc
  · exact .inr ⟨b, [], he, hlt, hvalid _ hb, by simp [hi], by simp [hr], fun hs => hwf _ hb hs⟩

/-- A checked body that raises: the check's code, or the body's own. -/
theorem afterCheck_error {α : Type} {check : Option Status} {body : Except Status α} {c : Status}
    (h : afterCheck check body = .error c) : check = some c ∨ body = .error c := by
  cases check with
  | none => exact .inr h
  | some d => cases h; exact .inl rfl

theorem bitsCheck_raised {len : Nat} {idx : List Nat} {c : Status} (h : bitsCheck len idx = some c) : c.raised = true := by
  unfold bitsCheck at h; split at h <;> cases h; rfl

theorem rangeCheck_raised {len first last : Nat} {c : Status} (h : rangeCheck len first last = some c) :
    c.raised = true := by
  unfold rangeCheck at h
  split at h
  · cases h; rfl
  · split at h <;> cases h; rfl

theorem positionCheck_raised {len pos : Nat} {c : Status} (h : positionCheck len pos = some c) : c.raised = true := by
  unfold positionCheck at h; split at h <;> cases h; rfl

theorem bitsCheck_eq_none {len : Nat} {idx : List Nat} (h : bitsCheck len idx = none) : ∀ i ∈ idx, i < 8 * len := by
  unfold bitsCheck at h
  split at h
  · rename_i hall
    simpa using hall
  · cases h

theorem positionCheck_eq_none {len pos : Nat} (h : positionCheck len pos = none) : pos < len := by
  unfold positionCheck at h
  split at h
  · cases h
  · omega

/-- A bank read by its own command: the body answers the bank itself. -/
theorem onBank_reader {i : Instr} {s : State} {check : Bank → Option Status} {results : Bank → List Word}
    (hcheck : ∀ b c, check b = some c → c.raised = true) :
    Ends i s (onBank i.bank (fun b => afterCheck (check b) (readOnly b (results b))) s) := by
  have hok : ∀ b b' rs, afterCheck (check b) (readOnly b (results b)) = .ok (b', rs) → b' = b := by
    intro b b' rs h
    have := (afterCheck_ok h).2
    cases this; rfl
  refine onBank_committed (fun b c h => ?_) (fun b b' rs h _ => hok b b' rs h)
    (fun b b' rs h => by rw [hok b b' rs h]; exact ⟨rfl, rfl⟩) (fun b b' rs h hb => by rw [hok b b' rs h]; exact hb)
  rcases afterCheck_error h with h | h
  · exact hcheck b c h
  · cases h

/-- A bank written by its own command, behind a check. -/
theorem onBank_writer {i : Instr} {s : State} {check : Bank → Option Status} {new : Bank → Bank}
    (hr : i.reads = false) (hcheck : ∀ b c, check b = some c → c.raised = true)
    (hkeep : ∀ b, (new b).valid = b.valid ∧ (new b).len = b.len)
    (hwf : ∀ b, check b = none → b.WF s.cfg.cap → (new b).WF s.cfg.cap) :
    Ends i s (onBank i.bank (fun b => afterCheck (check b) (writeOnly (new b))) s) := by
  have hok : ∀ b b' rs, afterCheck (check b) (writeOnly (new b)) = .ok (b', rs) → check b = none ∧ b' = new b := by
    intro b b' rs h
    obtain ⟨h1, h2⟩ := afterCheck_ok h
    cases h2; exact ⟨h1, rfl⟩
  refine onBank_committed (fun b c h => ?_) (fun b b' rs h h' => by simp [hr] at h')
    (fun b b' rs h => by rw [(hok b b' rs h).2]; exact hkeep b)
    (fun b b' rs h hb => by rw [(hok b b' rs h).2]; exact hwf b (hok b b' rs h).1 hb)
  rcases afterCheck_error h with h | h
  · exact hcheck b c h
  · cases h

/-- Two checks one after the other are one check. -/
theorem ite_afterCheck {α : Type} {p : Prop} [Decidable p] {c : Status} {check : Option Status} {body : Except Status α} :
    (if p then .error c else afterCheck check body) = afterCheck (if p then some c else check) body := by
  split <;> rfl

/-! ### Command by command -/

theorem execNewEmptyBuffer_ends (bk : BankNo) (s : State) : Ends (.newEmptyBuffer bk) s (execNewEmptyBuffer bk s) := by
  refine constructBank_committed (i := .newEmptyBuffer bk) (made := .ok (Bank.zeros Config.emptyLen)) rfl rfl
    (fun c h => by cases h) (fun b h => by cases h; rfl) (fun b h hs => ?_)
  cases h
  exact bank_wf_zeros hs.1.2.1.1

theorem execConstruct_ends (bk : BankNo) (vals : List Byte) (s : State) :
    Ends (.construct bk vals) s (execConstruct bk vals s) := by
  refine constructBank_committed (i := .construct bk vals)
    (made := if s.cfg.cap < vals.length then .error .capacity else .ok (Bank.ofBytes vals)) rfl rfl
    (fun c h => ?_) (fun b h => ?_) (fun b h hs => ?_) <;> split at h <;> cases h
  · rfl
  · rfl
  · exact bank_wf_ofBytes (by omega)

theorem execCopy_ends (bk src : BankNo) (s : State) : Ends (.copy bk src) s (execCopy bk src s) := by
  refine constructBank_committed (i := .copy bk src)
    (made := if s.hasBank src = false ∨ (s.bank src).valid = false then .error .copySource
      else .ok ⟨true, (s.bank src).len, (s.bank src).bytes⟩) rfl rfl
    (fun c h => ?_) (fun b h => ?_) (fun b h hs => ?_) <;> split at h <;> cases h
  · rfl
  · rfl
  · exact bank_wf hs src

theorem execGetLength_ends (bk : BankNo) (s : State) : Ends (.getLength bk) s (execGetLength bk s) :=
  onBank_reader (i := .getLength bk) (check := fun _ => none) (results := fun b => [BitVec.ofNat 32 b.len]) (by simp)

theorem execGetBit_ends (bk : BankNo) (n : Half) (s : State) : Ends (.getBit bk n) s (execGetBit bk n s) :=
  onBank_reader (i := .getBit bk n) (check := fun b => bitsCheck b.len [n.toNat])
    (results := fun b => [bitWord (b.bitAt n.toNat)]) fun _ _ h => bitsCheck_raised h

theorem execSetBit_ends (bk : BankNo) (n : Half) (v : Bit) (s : State) :
    Ends (.setBit bk n v) s (execSetBit bk n v s) :=
  onBank_writer (i := .setBit bk n v) (check := fun b => bitsCheck b.len [n.toNat])
    (new := fun b => b.setBitAt n.toNat v) rfl (fun _ _ h => bitsCheck_raised h) (fun _ => ⟨rfl, rfl⟩)
    fun _ h hb => bank_wf_setBitAt hb (bitsCheck_eq_none h _ (by simp)) v

theorem execGetBits_ends (bk : BankNo) (idx : List Half) (s : State) :
    Ends (.getBits bk idx) s (execGetBits bk idx s) := by
  have h := onBank_reader (i := .getBits bk idx) (s := s)
    (check := fun b => bitsCheck b.len (idx.map BitVec.toNat))
    (results := fun b => idx.map fun n => bitWord (b.bitAt n.toNat)) fun _ _ h => bitsCheck_raised h
  exact h

theorem execSetBits_ends (bk : BankNo) (idx : List Half) (vals : List Bit) (s : State) :
    Ends (.setBits bk idx vals) s (execSetBits bk idx vals s) := by
  unfold execSetBits
  simp only [ite_afterCheck]
  refine onBank_writer (i := .setBits bk idx vals)
    (new := fun b => b.setBitsAt ((idx.map BitVec.toNat).zip vals)) rfl (fun b c h => ?_)
    (fun b => ⟨by simp, by simp⟩) fun b h hb => ?_
  · split at h
    · cases h; rfl
    · exact bitsCheck_raised h
  · split at h
    · cases h
    · exact bank_wf_setBitsAt hb fun w hw => bitsCheck_eq_none h _ (List.of_mem_zip hw).1

theorem execGetByte_ends (bk : BankNo) (n : Half) (s : State) : Ends (.getByte bk n) s (execGetByte bk n s) :=
  onBank_reader (i := .getByte bk n) (check := fun b => rangeCheck b.len n.toNat n.toNat)
    (results := fun b => [byteWord (b.byte n.toNat)]) fun _ _ h => rangeCheck_raised h

theorem execSetByte_ends (bk : BankNo) (n : Half) (v : Byte) (s : State) :
    Ends (.setByte bk n v) s (execSetByte bk n v s) :=
  onBank_writer (i := .setByte bk n v) (check := fun b => rangeCheck b.len n.toNat n.toNat)
    (new := fun b => b.setByte n.toNat v) rfl (fun _ _ h => rangeCheck_raised h) (fun _ => ⟨rfl, rfl⟩)
    fun _ h hb => bank_wf_setByte hb (rangeCheck_eq_none h).2 v

theorem execGetBytes_ends (bk : BankNo) (first last : Half) (s : State) :
    Ends (.getBytes bk first last) s (execGetBytes bk first last s) :=
  onBank_reader (i := .getBytes bk first last) (check := fun b => rangeCheck b.len first.toNat last.toNat)
    (results := fun b => (b.memRead first.toNat (last.toNat - first.toNat + 1)).map byteWord)
    fun _ _ h => rangeCheck_raised h

theorem execSetBytes_ends (bk : BankNo) (first last : Half) (vals : List Byte) (s : State) :
    Ends (.setBytes bk first last vals) s (execSetBytes bk first last vals s) := by
  unfold execSetBytes
  simp only [ite_afterCheck]
  refine onBank_writer (i := .setBytes bk first last vals) (new := fun b => b.memWrite first.toNat vals) rfl
    (fun b c h => ?_) (fun b => ⟨rfl, rfl⟩) fun b h hb => ?_
  · split at h
    · cases h; rfl
    · exact rangeCheck_raised h
  · split at h
    · cases h
    · have := rangeCheck_eq_none h
      exact bank_wf_memWrite hb (by omega)

theorem execValidateChecksum_ends (bk : BankNo) (s : State) :
    Ends (.validateChecksum bk) s (execValidateChecksum bk s) := by
  refine onBank_committed (i := .validateChecksum bk) (body := fun b => afterCheck (positionCheck b.len Config.csumPos)
    (if b.byte Config.csumPos ≠ b.csum s.cfg.csumLo then .error .checksum else readOnly b []))
    (fun b c h => ?_) (fun b b' rs h _ => ?_) (fun b b' rs h => ?_) (fun b b' rs h hb => ?_)
  · rcases afterCheck_error h with h | h
    · exact positionCheck_raised h
    · split at h <;> cases h; rfl
  all_goals
    have h := (afterCheck_ok h).2
    split at h <;> cases h
  · rfl
  · exact ⟨rfl, rfl⟩
  · exact hb

theorem execFixChecksum_ends (bk : BankNo) (s : State) : Ends (.fixChecksum bk) s (execFixChecksum bk s) := by
  unfold execFixChecksum
  exact onBank_writer (i := .fixChecksum bk) (check := fun b => positionCheck b.len Config.csumPos)
    (new := fun b => b.setByte Config.csumPos (b.csum s.cfg.csumLo)) rfl (fun _ _ h => positionCheck_raised h)
    (fun _ => ⟨by simp, by simp⟩) fun _ h hb => bank_wf_setByte hb (positionCheck_eq_none h) _

/-- A rotation's new bank keeps the invariant, whatever the window and the counter become. -/
theorem bank_wf_rotated {cap : Nat} {b : Bank} (h : positionCheck b.len Config.ctrPos = none) (hb : b.WF cap)
    (w : Window) (v : Byte) : ((b.unpack w).setByte Config.ctrPos v).WF cap :=
  have h := positionCheck_eq_none h
  bank_wf_setByte (bank_wf_unpack hb (Nat.le_of_lt h) _) h _

theorem execRotateLeft_ends (bk : BankNo) (s : State) : Ends (.rotateLeft bk) s (execRotateLeft bk s) := by
  unfold execRotateLeft
  exact onBank_writer (i := .rotateLeft bk) (check := fun b => positionCheck b.len Config.ctrPos)
    (new := fun b => (b.unpack (rotatedLeft b.window)).setByte Config.ctrPos (b.byte Config.ctrPos + 1)) rfl
    (fun _ _ h => positionCheck_raised h) (fun _ => ⟨by simp, by simp⟩) fun _ h hb => bank_wf_rotated h hb _ _

theorem execRotateRight_ends (bk : BankNo) (s : State) : Ends (.rotateRight bk) s (execRotateRight bk s) := by
  unfold execRotateRight
  exact onBank_writer (i := .rotateRight bk) (check := fun b => positionCheck b.len Config.ctrPos)
    (new := fun b => (b.unpack (rotatedRight b.window)).setByte Config.ctrPos (b.byte Config.ctrPos + 255)) rfl
    (fun _ _ h => positionCheck_raised h) (fun _ => ⟨by simp, by simp⟩) fun _ h hb => bank_wf_rotated h hb _ _

/-- All that a command can do: it raises a status code of its own and keeps every bank, or it commits its own bank. -/
theorem exec_ends (i : Instr) (s : State) : Ends i s (exec i s) := by
  cases i with
  | newEmptyBuffer bk => exact execNewEmptyBuffer_ends bk s
  | construct bk vals => exact execConstruct_ends bk vals s
  | copy bk src => exact execCopy_ends bk src s
  | getLength bk => exact execGetLength_ends bk s
  | getBit bk n => exact execGetBit_ends bk n s
  | setBit bk n v => exact execSetBit_ends bk n v s
  | getBits bk idx => exact execGetBits_ends bk idx s
  | setBits bk idx vals => exact execSetBits_ends bk idx vals s
  | getByte bk n => exact execGetByte_ends bk n s
  | setByte bk n v => exact execSetByte_ends bk n v s
  | getBytes bk first last => exact execGetBytes_ends bk first last s
  | setBytes bk first last vals => exact execSetBytes_ends bk first last vals s
  | validateChecksum bk => exact execValidateChecksum_ends bk s
  | fixChecksum bk => exact execFixChecksum_ends bk s
  | rotateLeft bk => exact execRotateLeft_ends bk s
  | rotateRight bk => exact execRotateRight_ends bk s

/-- The next state of a command, in full: an error's, or that of one committed bank. -/
theorem exec_next {i : Instr} {s t : State} (h : exec i s = .next t) :
    (∃ c : Status, c.raised = true ∧ t = s.answered s.banks [c.code.setWidth 32]) ∨
    (∃ (b : Bank) (rs : List Word), Committed i s b ∧
      t = s.answered (s.setBank i.bank b).banks (BitVec.ofNat 32 (rs.length * 65536) :: rs)) := by
  rcases exec_ends i s with ⟨c, h', hc⟩ | ⟨b, rs, h', hb⟩
  · rw [h', raise_eq] at h
    cases h
    exact .inl ⟨c, hc, rfl⟩
  · rw [h', complete_eq] at h
    cases h
    exact .inr ⟨b, rs, hb, rfl⟩

/-- A command that constructs nothing is one body on its bank, which depends on the parameters alone. -/
theorem exec_onBank {i : Instr} (hi : i.constructs = false) :
    ∃ body : Nat → Bank → Except Status (Bank × List Word), ∀ s, exec i s = onBank i.bank (body s.cfg.csumLo) s := by
  cases i with
  | newEmptyBuffer bk => cases hi
  | construct bk vals => cases hi
  | copy bk src => cases hi
  | getLength bk =>
    refine ⟨fun _ => fun b => readOnly b [BitVec.ofNat 32 b.len], fun _ => ?_⟩
    rfl
  | getBit bk n =>
    refine ⟨fun _ => fun b => afterCheck (bitsCheck b.len [n.toNat]) (readOnly b [bitWord (b.bitAt n.toNat)]), fun _ => ?_⟩
    rfl
  | setBit bk n v =>
    refine ⟨fun _ => fun b => afterCheck (bitsCheck b.len [n.toNat]) (writeOnly (b.setBitAt n.toNat v)), fun _ => ?_⟩
    rfl
  | getBits bk idx =>
    refine ⟨fun _ => fun b => afterCheck (bitsCheck b.len (idx.map BitVec.toNat))
      (readOnly b (idx.map fun n => bitWord (b.bitAt n.toNat))), fun _ => ?_⟩
    rfl
  | setBits bk idx vals =>
    refine ⟨fun _ => fun b => if idx.length ≠ vals.length then .error .bitsMismatch
      else afterCheck (bitsCheck b.len (idx.map BitVec.toNat))
        (writeOnly (b.setBitsAt ((idx.map BitVec.toNat).zip vals))), fun _ => ?_⟩
    rfl
  | getByte bk n =>
    refine ⟨fun _ => fun b => afterCheck (rangeCheck b.len n.toNat n.toNat) (readOnly b [byteWord (b.byte n.toNat)]), fun _ => ?_⟩
    rfl
  | setByte bk n v =>
    refine ⟨fun _ => fun b => afterCheck (rangeCheck b.len n.toNat n.toNat) (writeOnly (b.setByte n.toNat v)), fun _ => ?_⟩
    rfl
  | getBytes bk first last =>
    refine ⟨fun _ => fun b => afterCheck (rangeCheck b.len first.toNat last.toNat)
      (readOnly b ((b.memRead first.toNat (last.toNat - first.toNat + 1)).map byteWord)), fun _ => ?_⟩
    rfl
  | setBytes bk first last vals =>
    refine ⟨fun _ => fun b => if (vals.length : Int) ≠ (last.toNat : Int) - (first.toNat : Int) + 1 then .error .bytesMismatch
      else afterCheck (rangeCheck b.len first.toNat last.toNat) (writeOnly (b.memWrite first.toNat vals)), fun _ => ?_⟩
    rfl
  | validateChecksum bk =>
    refine ⟨fun lo b => afterCheck (positionCheck b.len Config.csumPos)
      (if b.byte Config.csumPos ≠ b.csum lo then .error .checksum else readOnly b []), fun _ => ?_⟩
    rfl
  | fixChecksum bk =>
    refine ⟨fun lo b => afterCheck (positionCheck b.len Config.csumPos)
      (writeOnly (b.setByte Config.csumPos (b.csum lo))), fun _ => ?_⟩
    rfl
  | rotateLeft bk =>
    refine ⟨fun _ => fun b => afterCheck (positionCheck b.len Config.ctrPos)
      (writeOnly ((b.unpack (rotatedLeft b.window)).setByte Config.ctrPos (b.byte Config.ctrPos + 1))), fun _ => ?_⟩
    rfl
  | rotateRight bk =>
    refine ⟨fun _ => fun b => afterCheck (positionCheck b.len Config.ctrPos)
      (writeOnly ((b.unpack (rotatedRight b.window)).setByte Config.ctrPos (b.byte Config.ctrPos + 255))), fun _ => ?_⟩
    rfl

/-! ### What a command does is decided by the parameters and the banks alone -/

/-- A command with its answer already decided: a status code, or its bank and results. -/
def settle (k : BankNo) (r : Except Status (Bank × List Word)) (s : State) : Host.Outcome State Fault Refusal :=
  match r with
  | .error c => raise c s
  | .ok (b, results) => complete results (s.setBank k b)

theorem onBank_settle (k : BankNo) (body : Bank → Except Status (Bank × List Word)) (s : State) :
    onBank k body s = settle k
      (if s.cfg.nb ≤ k.toNat then .error .badBank
       else if (s.bank k).valid = false then .error .notConstructed else body (s.bank k)) s := by
  by_cases h : s.cfg.nb ≤ k.toNat
  · rw [if_pos h, onBank_badBank h]; rfl
  · rw [if_neg h]
    cases hv : (s.bank k).valid with
    | false => rw [if_pos rfl, onBank_notConstructed (by omega) hv]; rfl
    | true =>
      rw [if_neg (by simp)]
      cases hb : body (s.bank k) with
      | error c => rw [onBank_error (by omega) hv hb]; rfl
      | ok r => rw [onBank_ok (by omega) hv hb]; rfl

theorem constructBank_settle (k : BankNo) (made : Except Status Bank) (s : State) :
    constructBank k made s = settle k
      (if s.cfg.nb ≤ k.toNat then .error .badBank else made.map fun b => (b, [])) s := by
  by_cases h : s.cfg.nb ≤ k.toNat
  · rw [if_pos h, constructBank_badBank h]; rfl
  · rw [if_neg h]
    cases made with
    | error c => rw [constructBank_error (by omega)]; rfl
    | ok b => rw [constructBank_ok (by omega)]; rfl

/-- A constructing command makes its bank from the parameters and the banks. -/
theorem exec_constructBank {i : Instr} (hi : i.constructs = true) :
    ∃ made : Config → (BankNo → Bank) → Except Status Bank,
      ∀ s, exec i s = constructBank i.bank (made s.cfg s.bank) s := by
  cases i with
  | newEmptyBuffer bk =>
    refine ⟨fun _ _ => .ok (Bank.zeros Config.emptyLen), fun _ => ?_⟩
    rfl
  | construct bk vals =>
    refine ⟨fun c _ => if c.cap < vals.length then .error .capacity else .ok (Bank.ofBytes vals), fun _ => ?_⟩
    rfl
  | copy bk src =>
    refine ⟨fun c bs => if decide (src.toNat < c.nb) = false ∨ (bs src).valid = false then .error .copySource
      else .ok ⟨true, (bs src).len, (bs src).bytes⟩, fun _ => ?_⟩
    rfl
  | _ => cases hi

/-- Every command is decided by the parameters and the banks: neither the port nor the responses returned so far have a part in
it. -/
theorem exec_settle (i : Instr) :
    ∃ f : Config → (BankNo → Bank) → Except Status (Bank × List Word), ∀ s, exec i s = settle i.bank (f s.cfg s.bank) s := by
  cases hi : i.constructs with
  | false =>
    obtain ⟨body, hb⟩ := exec_onBank hi
    refine ⟨fun c bs => if c.nb ≤ i.bank.toNat then .error .badBank
      else if (bs i.bank).valid = false then .error .notConstructed else body c.csumLo (bs i.bank), fun s => ?_⟩
    rw [hb, onBank_settle]
  | true =>
    obtain ⟨made, hm⟩ := exec_constructBank hi
    refine ⟨fun c bs => if c.nb ≤ i.bank.toNat then .error .badBank else (made c bs).map fun b => (b, []), fun s => ?_⟩
    rw [hm, constructBank_settle]

/-! ### The state of an answered command -/

@[simp] theorem answered_cfg (s : State) (bs : List Bank) (p : Packet) : (s.answered bs p).cfg = s.cfg := rfl
@[simp] theorem answered_banks (s : State) (bs : List Bank) (p : Packet) : (s.answered bs p).banks = bs := rfl
@[simp] theorem answered_port (s : State) (bs : List Bank) (p : Packet) : (s.answered bs p).port = s.port.tail := rfl
@[simp] theorem answered_out (s : State) (bs : List Bank) (p : Packet) : (s.answered bs p).out = s.out ++ [p] := rfl
@[simp] theorem answered_bank_kept (s : State) (p : Packet) (k : BankNo) : (s.answered s.banks p).bank k = s.bank k := rfl
@[simp] theorem answered_bank_set (s : State) (p : Packet) (j k : BankNo) (b : Bank) :
    (s.answered (s.setBank j b).banks p).bank k = (s.setBank j b).bank k := rfl

/-! ### A command on a ready bank -/

section Ready
variable {s : State} {bk : BankNo} {body : Bank → Except Status (Bank × List Word)}

/-- The body raises a status code: the command fails with it (R11). -/
theorem onBank_fails (hr : Ready s bk) {c : Status} (hb : body (s.bank bk) = .error c) :
    onBank bk body s = .next (s.answered s.banks [c.code.setWidth 32]) := by
  rw [onBank_error hr.2.1 hr.2.2 hb, raise_eq]

/-- The body reads: the command returns its results and changes no bank (R48). -/
theorem onBank_returns (hr : Ready s bk) {results : List Word} (hb : body (s.bank bk) = .ok (s.bank bk, results)) :
    onBank bk body s = .next (s.answered s.banks (BitVec.ofNat 32 (results.length * 65536) :: results)) := by
  rw [onBank_ok hr.2.1 hr.2.2 hb, complete_eq, setBank_bank_self]

/-- A bank committed without results: every other bank and everything else are kept (R32). -/
theorem complete_commits (hs : s.WF) (h : bk.toNat < s.cfg.nb) {b : Bank} {P : Bank → Prop} (hp : P b) :
    ∃ t, complete [] (s.setBank bk b) = .next t ∧ t = s.answered t.banks [0] ∧ t.banks.length = s.banks.length ∧
      (∀ k, k ≠ bk → t.bank k = s.bank k) ∧ P (t.bank bk) := by
  refine ⟨_, complete_eq _ _, rfl, by simp, fun k hk => setBank_bank_other s b hk, ?_⟩
  have hb : (s.setBank bk b).bank bk = b := setBank_bank_same b (by rw [hs.2.1]; exact h)
  exact hb.symm ▸ hp

/-- The body writes: the command commits the new bank (R11). -/
theorem onBank_commits (hr : Ready s bk) {b : Bank} (hb : body (s.bank bk) = .ok (b, [])) {P : Bank → Prop} (hp : P b) :
    ∃ t, onBank bk body s = .next t ∧ t = s.answered t.banks [0] ∧ t.banks.length = s.banks.length ∧
      (∀ k, k ≠ bk → t.bank k = s.bank k) ∧ P (t.bank bk) := by
  rw [onBank_ok hr.2.1 hr.2.2 hb]
  exact complete_commits hr.1 hr.2.1 hp

/-! ### From a body's answer to how the command ends -/

theorem fails_of_onBank {i : Instr} (he : exec i s = onBank i.bank body s) (hr : Ready s i.bank) {c : Status}
    (hb : body (s.bank i.bank) = .error c) : Fails i s c.code.toNat := by
  rw [Fails, he, onBank_fails hr hb]
  cases c <;> rfl

theorem returns_of_onBank {i : Instr} (he : exec i s = onBank i.bank body s) (hr : Ready s i.bank) {results : List Word}
    (hb : body (s.bank i.bank) = .ok (s.bank i.bank, results)) : Returns i s results := by
  rw [Returns, he, onBank_returns hr hb]

theorem commits_of_complete {i : Instr} {b : Bank} (he : exec i s = complete [] (s.setBank i.bank b)) (hs : s.WF)
    (h : i.bank.toNat < s.cfg.nb) {P : Bank → Prop} (hp : P b) : Commits i s P := by
  rw [Commits, he]
  exact complete_commits hs h hp

theorem commits_of_onBank {i : Instr} (he : exec i s = onBank i.bank body s) (hr : Ready s i.bank) {b : Bank}
    (hb : body (s.bank i.bank) = .ok (b, [])) {P : Bank → Prop} (hp : P b) : Commits i s P := by
  rw [Commits, he]
  exact onBank_commits hr hb hp

end Ready

/-- After a commit to a ready bank the bank is ready again, and the parameters are kept. -/
theorem ready_of_commits {i : Instr} {s t : State} {P : Bank → Prop} (hr : Ready s i.bank) (hP : ∀ b, P b → b.valid = true)
    (hc : Commits i s P) (h : exec i s = .next t) : Ready t i.bank ∧ P (t.bank i.bank) ∧ t.cfg = s.cfg := by
  obtain ⟨u, h1, h2, -, -, h5⟩ := hc
  rw [h1] at h
  cases h
  have hcfg : t.cfg = s.cfg := by rw [h2]; rfl
  refine ⟨⟨?_, by rw [hcfg]; exact hr.2.1, hP _ h5⟩, h5, hcfg⟩
  rcases exec_next h1 with ⟨c, _, rfl⟩ | ⟨b, rs, hb, rfl⟩
  · exact hr.1
  · refine ⟨hr.1.1, by simpa using hr.1.2.1, fun x hx => ?_⟩
    rcases List.mem_or_eq_of_mem_set hx with hx | rfl
    · exact hr.1.2.2 x hx
    · exact hb.wf hr.1

end Sys2Proof.Machine
end

