-- ==== Sys2Proof/Laws/PerInstr.lean ====
section
/-! SUPPORT. The per-instruction family `Header`: the first word of every command's packet carries the command's own opcode and its
bank, and no other opcode is read from it (R61, R67). -/

namespace Sys2Proof.Laws.Header

/-- The header of the command's packet: its opcode selects the command's row of the opcode map, and its `BK` is the command's
bank. -/
def Statement (i : Instr) : Prop :=
  ∃ h rest, encode i = h :: rest ∧ opcodeOf (fieldOp h) = some i.opcode ∧ fieldBk h = i.bank

theorem newEmptyBuffer (bk : BankNo) : Statement (.newEmptyBuffer bk) :=
  ⟨_, _, rfl, by simp [Instr.opcode], by simp [Instr.bank]⟩

theorem construct (bk : BankNo) (vals : List Byte) : Statement (.construct bk vals) :=
  ⟨_, _, rfl, by simp [Instr.opcode], by simp [Instr.bank]⟩

theorem copy (bk src : BankNo) : Statement (.copy bk src) :=
  ⟨_, _, rfl, by simp [Instr.opcode], by simp [Instr.bank]⟩

theorem getLength (bk : BankNo) : Statement (.getLength bk) :=
  ⟨_, _, rfl, by simp [Instr.opcode], by simp [Instr.bank]⟩

theorem getBit (bk : BankNo) (n : Half) : Statement (.getBit bk n) :=
  ⟨_, _, rfl, by simp [Instr.opcode], by simp [Instr.bank]⟩

theorem setBit (bk : BankNo) (n : Half) (v : Bit) : Statement (.setBit bk n v) :=
  ⟨_, _, rfl, by simp [Instr.opcode], by simp [Instr.bank]⟩

theorem getBits (bk : BankNo) (idx : List Half) : Statement (.getBits bk idx) :=
  ⟨_, _, rfl, by simp [Instr.opcode], by simp [Instr.bank]⟩

theorem setBits (bk : BankNo) (idx : List Half) (vals : List Bit) : Statement (.setBits bk idx vals) :=
  ⟨_, _, rfl, by simp [Instr.opcode], by simp [Instr.bank]⟩

theorem getByte (bk : BankNo) (n : Half) : Statement (.getByte bk n) :=
  ⟨_, _, rfl, by simp [Instr.opcode], by simp [Instr.bank]⟩

theorem setByte (bk : BankNo) (n : Half) (v : Byte) : Statement (.setByte bk n v) :=
  ⟨_, _, rfl, by simp [Instr.opcode], by simp [Instr.bank]⟩

theorem getBytes (bk : BankNo) (first last : Half) : Statement (.getBytes bk first last) :=
  ⟨_, _, rfl, by simp [Instr.opcode], by simp [Instr.bank]⟩

theorem setBytes (bk : BankNo) (first last : Half) (vals : List Byte) : Statement (.setBytes bk first last vals) :=
  ⟨_, _, rfl, by simp [Instr.opcode], by simp [Instr.bank]⟩

theorem validateChecksum (bk : BankNo) : Statement (.validateChecksum bk) :=
  ⟨_, _, rfl, by simp [Instr.opcode], by simp [Instr.bank]⟩

theorem fixChecksum (bk : BankNo) : Statement (.fixChecksum bk) :=
  ⟨_, _, rfl, by simp [Instr.opcode], by simp [Instr.bank]⟩

theorem rotateLeft (bk : BankNo) : Statement (.rotateLeft bk) :=
  ⟨_, _, rfl, by simp [Instr.opcode], by simp [Instr.bank]⟩

theorem rotateRight (bk : BankNo) : Statement (.rotateRight bk) :=
  ⟨_, _, rfl, by simp [Instr.opcode], by simp [Instr.bank]⟩

end Sys2Proof.Laws.Header
end

