-- ==== Sys2Proof/Laws/Words.lean ====
section
/-! SUPPORT. Header and operand words as numbers, and reserved bits as masks: the encoder's and decoder's words against the spec's
formulas (R61 to R64, R69). -/

namespace Sys2Proof

/-- Two numbers side by side: a disjunction is a sum. -/
theorem mul_two_pow_or {a b n : Nat} (h : b < 2 ^ n) : a * 2 ^ n ||| b = a * 2 ^ n + b := by
  rw [Nat.mul_comm, Nat.two_pow_add_eq_or_of_lt h]

/-- A header word is the number with its four fields (R61). -/
theorem headerWord_eq (o : Opcode) (bk : BankNo) (aux : BitVec 4) (a : Half) :
    headerWord o bk aux a = headerOf o.code.toNat bk.toNat aux.toNat a.toNat := by
  apply BitVec.eq_of_toNat_eq
  have h1 := o.code.isLt
  have h2 := bk.isLt
  have h3 := aux.isLt
  have h4 := a.isLt
  simp only [headerWord, headerOf, BitVec.toNat_append, BitVec.toNat_ofNat, Nat.shiftLeft_eq]
  rw [mul_two_pow_or h2, mul_two_pow_or h3, mul_two_pow_or h4]
  omega

/-- An operand word is the number with its two fields (R62). -/
theorem operandWord_eq (wb wc : Half) : operandWord wb wc = operandOf wb.toNat wc.toNat := by
  apply BitVec.eq_of_toNat_eq
  have h1 := wb.isLt
  have h2 := wc.isLt
  simp only [operandWord, operandOf, BitVec.toNat_append, BitVec.toNat_ofNat, Nat.shiftLeft_eq]
  rw [mul_two_pow_or h2]
  omega

/-- A field is zero exactly when no bit of its mask is one. -/
theorem and_mask_eq_zero (w : Word) {s n : Nat} (h : s + n ≤ 32) :
    w &&& ((BitVec.allOnes n).setWidth 32 <<< s) = 0 ↔ w.extractLsb' s n = 0 := by
  constructor
  · intro hz
    apply BitVec.eq_of_getLsbD_eq
    intro i hi
    have := congrArg (fun x => x.getLsbD (s + i)) hz
    simpa [hi, show s + i < 32 by omega, show i < 32 by omega] using this
  · intro hz
    apply BitVec.eq_of_getLsbD_eq
    intro i hi
    have := congrArg (fun x => x.getLsbD (i - s)) hz
    by_cases h1 : s ≤ i ∧ i - s < n
    · simp [h1.2, show s + (i - s) = i by omega] at this
      simp [this]
    · simp only [not_and, not_lt] at h1
      simp only [BitVec.getLsbD_and, BitVec.getLsbD_shiftLeft, BitVec.getLsbD_setWidth, BitVec.getLsbD_allOnes]
      by_cases h2 : i < s
      · simp [h2]
      · have := h1 (by omega)
        simp [show ¬ i - s < n by omega]

end Sys2Proof
end

