-- ==== Sys2Proof/Tests/Slice0.lean ====
section
/-! SUPPORT. Tests. The expected results are those of the vectors of spec/95_test_vectors.md (named V<n>), of the examples of the
instruction rules, or hand calculation from a rule; the witnesses show, for each statement with hypotheses, values that
meet them, at the boundaries of each clause. -/

namespace Sys2Proof.Tests

open Sys2Proof.Machine

/-! ## Small states -/

/-- A constructed bank of length `len` that lists these bytes. -/
def bankOf (len : Nat) (bytes : Memory) : Bank := ⟨true, len, bytes⟩

/-- A state with the default parameters, these two banks and these inputs. -/
def stateOf (b0 b1 : Bank) (port : List Input) : State := ⟨Config.default, [b0, b1], port, []⟩

/-- Bank 0 is `b`, bank 1 is unconstructed, and one packet is presented. -/
def presented (b : Bank) (p : Packet) : State := stateOf b Bank.unconstructed [.packet p]

/-- The banks and the responses after an outcome; none where it is no next state. -/
def seen (r : Host.Outcome State Fault Refusal) : Option (List Bank × List Packet) :=
  match r with
  | .next t => some (t.banks, t.out)
  | .fault _ => none
  | .refused _ => none

/-- What one step on one packet leaves in bank 0, and its response. -/
def bank0After (b : Bank) (p : Packet) : Option (Bank × List Packet) :=
  (seen (step (presented b p))).map fun r => (r.1.headD Bank.unconstructed, r.2)

/-- What one step on one packet leaves in bank 1, and its response. -/
def bank1After (b0 b1 : Bank) (p : Packet) : Option (Bank × List Packet) :=
  (seen (step (stateOf b0 b1 [.packet p]))).map fun r => (r.1.getD 1 Bank.unconstructed, r.2)

/-! ## WellFormed: each check refuses a term that no packet can carry (R7, R65) -/

theorem test_wellFormed_construct : (Instr.construct 0 (List.replicate 65536 0)).wellFormed = false := by
  simp only [Instr.wellFormed, fitsCount, List.length_replicate]; decide

theorem test_wellFormed_getBits : (Instr.getBits 0 (List.replicate 65536 0)).wellFormed = false := by
  simp only [Instr.wellFormed, fitsCount, List.length_replicate]; decide

theorem test_wellFormed_setBits_indices : (Instr.setBits 0 (List.replicate 65536 0) []).wellFormed = false := by
  simp only [Instr.wellFormed, fitsCount, List.length_replicate]; decide

theorem test_wellFormed_setBits_values : (Instr.setBits 0 [] (List.replicate 65536 0)).wellFormed = false := by
  simp only [Instr.wellFormed, fitsCount, List.length_replicate]; decide

theorem test_wellFormed_setBytes : (Instr.setBytes 0 0 0 (List.replicate 65536 0)).wellFormed = false := by
  simp only [Instr.wellFormed, fitsCount, List.length_replicate]; decide

theorem test_wellFormed_largest_count : (Instr.construct 0 (List.replicate 65535 0)).wellFormed = true := by
  simp only [Instr.wellFormed, fitsCount, List.length_replicate]; decide

/-! ## Decoding: words written out from the encodings of R61 to R67 and of each instruction rule -/

theorem test_decode_newEmptyBuffer : decode [0x01500000] = .accept (.newEmptyBuffer 5) ∧
    encode (.newEmptyBuffer 5) = [0x01500000] := by decide

theorem test_decode_construct : decode [0x02F00002, 0x00000012, 0x000000FF] = .accept (.construct 15 [0x12, 0xFF]) ∧
    encode (.construct 15 [0x12, 0xFF]) = [0x02F00002, 0x00000012, 0x000000FF] := by decide

theorem test_decode_copy : decode [0x03120000] = .accept (.copy 1 2) ∧ encode (.copy 1 2) = [0x03120000] := by decide

theorem test_decode_getLength : decode [0x04A00000] = .accept (.getLength 10) ∧
    encode (.getLength 10) = [0x04A00000] := by decide

theorem test_decode_getBit : decode [0x1010009F] = .accept (.getBit 1 159) ∧
    encode (.getBit 1 159) = [0x1010009F] := by decide

theorem test_decode_setBit : decode [0x11310102] = .accept (.setBit 3 258 1) ∧
    encode (.setBit 3 258 1) = [0x11310102] := by decide

theorem test_decode_getBits :
    decode [0x12000003, 0x00000006, 0x00000001, 0x0000FFFF] = .accept (.getBits 0 [6, 1, 65535]) ∧
    encode (.getBits 0 [6, 1, 65535]) = [0x12000003, 0x00000006, 0x00000001, 0x0000FFFF] := by decide

theorem test_decode_setBits :
    decode [0x13200002, 0x00010000, 0x00000001, 0x00000003, 0x00000001] = .accept (.setBits 2 [1, 3] [1]) ∧
    encode (.setBits 2 [1, 3] [1]) = [0x13200002, 0x00010000, 0x00000001, 0x00000003, 0x00000001] := by decide

theorem test_decode_getByte : decode [0x20001234] = .accept (.getByte 0 0x1234) ∧
    encode (.getByte 0 0x1234) = [0x20001234] := by decide

theorem test_decode_setByte : decode [0x21100010, 0x0000007F] = .accept (.setByte 1 16 0x7F) ∧
    encode (.setByte 1 16 0x7F) = [0x21100010, 0x0000007F] := by decide

theorem test_decode_getBytes : decode [0x22400009, 0x00000005] = .accept (.getBytes 4 9 5) ∧
    encode (.getBytes 4 9 5) = [0x22400009, 0x00000005] := by decide

theorem test_decode_setBytes :
    decode [0x23000001, 0x00020003, 0x000000AA, 0x000000BB] = .accept (.setBytes 0 1 3 [0xAA, 0xBB]) ∧
    encode (.setBytes 0 1 3 [0xAA, 0xBB]) = [0x23000001, 0x00020003, 0x000000AA, 0x000000BB] := by decide

theorem test_decode_validateChecksum : decode [0x30600000] = .accept (.validateChecksum 6) ∧
    encode (.validateChecksum 6) = [0x30600000] := by decide

theorem test_decode_fixChecksum : decode [0x31700000] = .accept (.fixChecksum 7) ∧
    encode (.fixChecksum 7) = [0x31700000] := by decide

theorem test_decode_rotateLeft : decode [0x40800000] = .accept (.rotateLeft 8) ∧
    encode (.rotateLeft 8) = [0x40800000] := by decide

theorem test_decode_rotateRight : decode [0x41900000] = .accept (.rotateRight 9) ∧
    encode (.rotateRight 9) = [0x41900000] := by decide

/-- V88 to V94, V97: the decoder's own rejections, in the order of R77. -/
theorem test_decode_rejects :
    decode [] = .reject .malformedLength ∧ decode [0x00000000] = .reject .illegalOpcode ∧
    decode [0x05000000] = .reject .illegalOpcode ∧ decode [0xFF000000, 1, 2] = .reject .illegalOpcode ∧
    decode [0x40000000, 0] = .reject .malformedLength ∧ decode [0x22000001] = .reject .malformedLength ∧
    decode [0x13000000] = .reject .malformedLength ∧ decode [0x40300001] = .reject .reservedNonzero := by decide

/-- V6, V28, V34, V43, V48, V60, V72, V87: a reserved bit in each kind of word. -/
theorem test_decode_reserved :
    decode [0x02000001, 0x00000100] = .reject .reservedNonzero ∧ decode [0x11030000] = .reject .reservedNonzero ∧
    decode [0x12000001, 0x00010000] = .reject .reservedNonzero ∧
    decode [0x13000001, 0x00010000, 0x00000000, 0x00000002] = .reject .reservedNonzero ∧
    decode [0x21000001, 0x00000100] = .reject .reservedNonzero ∧
    decode [0x23000000, 0x00010000, 0x000001FF] = .reject .reservedNonzero ∧
    decode [0x30000001] = .reject .reservedNonzero ∧ decode [0x41010000] = .reject .reservedNonzero := by decide

/-- A table row's bits, and the zero operand words that its header declares. -/
theorem test_table_words :
    decodeTableWord 32 0x01100000 = some (.newEmptyBuffer 1) ∧ decodeTableWord 32 0x02000002 = some (.construct 0 [0, 0]) ∧
    decodeTableWord 32 0x21000003 = some (.setByte 0 3 0) ∧ decodeTableWord 64 0x0000000500000002 = none ∧
    decodeTableWord 64 0x0000000522000002 = some (.getBytes 0 2 5) ∧ decodeTableWord 32 0x05000000 = none := by decide

/-- Each word least-significant byte first (R43). -/
theorem test_transport : packetToBytes [0x02000001, 0x000000AB] = [0x01, 0x00, 0x00, 0x02, 0xAB, 0x00, 0x00, 0x00] ∧
    packetOfBytes [0x01, 0x00, 0x00, 0x02, 0xAB, 0x00, 0x00, 0x00] = some [0x02000001, 0x000000AB] ∧
    packetOfBytes [0x01, 0x00, 0x00] = none := by decide

/-! ## One step of each command -/

/-- V2: an old, shorter buffer is replaced. -/
theorem test_newEmptyBuffer :
    bank0After (bankOf 4 [(0, 1), (1, 2), (2, 3), (3, 4)]) [0x01000000] = some (bankOf 20 [], [[0]]) := by decide

/-- The example of R101. -/
theorem test_construct : bank0After Bank.unconstructed [0x02000004, 0x0000000A, 0x0000000B, 0x0000000C, 0x0000000D] =
    some (bankOf 4 [(0, 0x0A), (1, 0x0B), (2, 0x0C), (3, 0x0D)], [[0]]) := by decide

/-- V5: 21 bytes do not fit a bank of 20. -/
theorem test_construct_capacity : bank0After Bank.unconstructed (0x02000015 :: List.replicate 21 0) =
    some (Bank.unconstructed, [[0x14]]) := by decide

/-- V8. -/
theorem test_copy : bank1After (bankOf 1 [(0, 0x81)]) Bank.unconstructed [0x03100000] =
    some (bankOf 1 [(0, 0x81)], [[0]]) := by decide

/-- V10: the source is unconstructed. -/
theorem test_copy_source : bank1After Bank.unconstructed (bankOf 1 [(0, 0x55)]) [0x03100000] =
    some (bankOf 1 [(0, 0x55)], [[0x0A]]) := by decide

/-- V14. -/
theorem test_getLength : bank0After (bankOf 20 []) [0x04000000] = some (bankOf 20 [], [[0x00010000, 0x14]]) := by decide

/-- V16. -/
theorem test_getLength_unconstructed : bank0After Bank.unconstructed [0x04000000] =
    some (Bank.unconstructed, [[0x13]]) := by decide

/-- V20: the last bit of the last byte. -/
theorem test_getBit : bank0After (bankOf 20 [(19, 0x80)]) [0x1000009F] =
    some (bankOf 20 [(19, 0x80)], [[0x00010000, 1]]) := by decide

/-- V21: index `8 * LEN`. -/
theorem test_getBit_bound : bank0After (bankOf 20 []) [0x100000A0] = some (bankOf 20 [], [[7]]) := by decide

/-- V26: byte 1, bit 1. -/
theorem test_setBit : bank0After (bankOf 2 []) [0x11010009] = some (bankOf 2 [(1, 0x02)], [[0]]) := by decide

/-- V24: the top bit cleared. -/
theorem test_setBit_clear : bank0After (bankOf 1 [(0, 0xFF)]) [0x11000007] = some (bankOf 1 [(0, 0x7F)], [[0]]) := by decide

/-- V31: request order. -/
theorem test_getBits : bank0After (bankOf 1 [(0, 0x42)]) [0x12000003, 6, 1, 0] =
    some (bankOf 1 [(0, 0x42)], [[0x00030000, 1, 1, 0]]) := by decide

/-- V33: the second index is out of bounds, and no result word is returned. -/
theorem test_getBits_bound : bank0After (bankOf 1 [(0, 0x42)]) [0x12000002, 1, 8] =
    some (bankOf 1 [(0, 0x42)], [[7]]) := by decide

/-- V35. -/
theorem test_setBits : bank0After (bankOf 1 [(0, 0x08)]) [0x13000003, 0x00030000, 1, 3, 6, 1, 0, 1] =
    some (bankOf 1 [(0, 0x42)], [[0]]) := by decide

/-- V38: the last write to an index stands. -/
theorem test_setBits_last : bank0After (bankOf 1 []) [0x13000002, 0x00020000, 2, 2, 0, 1] =
    some (bankOf 1 [(0, 0x04)], [[0]]) := by decide

/-- V44. -/
theorem test_getByte : bank0After (bankOf 4 [(0, 0x0A), (1, 0x0B), (2, 0x0C), (3, 0x0D)]) [0x20000003] =
    some (bankOf 4 [(0, 0x0A), (1, 0x0B), (2, 0x0C), (3, 0x0D)], [[0x00010000, 0x0D]]) := by decide

/-- V45: index `LEN`. -/
theorem test_getByte_bound : bank0After (bankOf 4 []) [0x20000004] = some (bankOf 4 [], [[7]]) := by decide

/-- V46. -/
theorem test_setByte : bank0After (bankOf 4 [(0, 0x0A), (1, 0x0B), (2, 0x0C), (3, 0x0D)]) [0x21000001, 0xFF] =
    some (bankOf 4 [(0, 0x0A), (1, 0xFF), (2, 0x0C), (3, 0x0D)], [[0]]) := by decide

/-- A zero written removes the listed byte (the canonical form; R142). -/
theorem test_setByte_zero : bank0After (bankOf 4 [(1, 0x0B)]) [0x21000001, 0] = some (bankOf 4 [], [[0]]) := by decide

/-- V51: the whole bank. -/
theorem test_getBytes : bank0After (bankOf 4 [(0, 0x0A), (1, 0x0B), (2, 0x0C), (3, 0x0D)]) [0x22000000, 3] =
    some (bankOf 4 [(0, 0x0A), (1, 0x0B), (2, 0x0C), (3, 0x0D)], [[0x00040000, 0x0A, 0x0B, 0x0C, 0x0D]]) := by decide

/-- V53: the order of the bounds is reported before the bounds. -/
theorem test_getBytes_order : bank0After (bankOf 4 []) [0x22000009, 5] = some (bankOf 4 [], [[8]]) := by decide

/-- V55. -/
theorem test_setBytes : bank0After (bankOf 4 [(0, 0x0A), (1, 0x0B), (2, 0x0C), (3, 0x0D)])
    [0x23000001, 0x00030003, 0xAA, 0xBB, 0xCC] =
    some (bankOf 4 [(0, 0x0A), (1, 0xAA), (2, 0xBB), (3, 0xCC)], [[0]]) := by decide

/-- V57, V58: no values, with `first = last + 1` and with `first` above that. -/
theorem test_setBytes_empty : bank0After (bankOf 4 []) [0x23000003, 0x00000002] = some (bankOf 4 [], [[8]]) ∧
    bank0After (bankOf 4 []) [0x23000005, 0x00000003] = some (bankOf 4 [], [[5]]) := by decide

/-- V63: `0xFF + 0x02` modulo 256. -/
theorem test_validateChecksum : bank0After (bankOf 20 [(6, 0xFF), (7, 0x02), (17, 0x01)]) [0x30000000] =
    some (bankOf 20 [(6, 0xFF), (7, 0x02), (17, 0x01)], [[0]]) := by decide

/-- V64. -/
theorem test_validateChecksum_wrong : bank0After (bankOf 20 [(6, 0xFF), (7, 0x02)]) [0x30000000] =
    some (bankOf 20 [(6, 0xFF), (7, 0x02)], [[9]]) := by decide

/-- V68: the counter byte is summed and the old checksum byte is not. -/
theorem test_fixChecksum : bank0After (bankOf 20 [(16, 0x05), (17, 0xAA)]) [0x31000000] =
    some (bankOf 20 [(16, 0x05), (17, 0x05)], [[0]]) := by decide

/-- V74: with `CSUM_LO = 0` bytes 0 to 5 are summed as well. -/
theorem test_fixChecksum_from_zero :
    seen (step ⟨⟨1, 20, 0⟩, [bankOf 20 [(0, 0x01), (5, 0x02), (6, 0xFF), (7, 0x02)]], [.packet [0x31000000]], []⟩) =
      some ([bankOf 20 [(0, 0x01), (5, 0x02), (6, 0xFF), (7, 0x02), (17, 0x04)]], [[0]]) := by decide

/-- V81: a carry across bytes, the wrap into byte 15, and an untouched checksum byte. -/
theorem test_rotateLeft : bank0After (bankOf 20 [(0, 0x81), (15, 0x01), (17, 0x5A)]) [0x40000000] =
    some (bankOf 20 [(0, 0x02), (15, 0x03), (16, 0x01), (17, 0x5A)], [[0]]) := by decide

/-- V79: the counter wraps. -/
theorem test_rotateLeft_counter : bank0After (bankOf 20 [(16, 0xFF)]) [0x40000000] = some (bankOf 20 [], [[0]]) := by decide

/-- V82: bit 0 of byte 15 moves to bit 7 of byte 0, and the counter goes from 0 to 255. -/
theorem test_rotateRight : bank0After (bankOf 20 [(15, 0x01)]) [0x41000000] =
    some (bankOf 20 [(0, 0x80), (16, 0xFF)], [[0]]) := by decide

/-- V86, for the other direction: a 16-byte bank has no counter byte (R180). -/
theorem test_rotateRight_short : bank0After (bankOf 16 [(0, 0x80)]) [0x41000000] =
    some (bankOf 16 [(0, 0x80)], [[7]]) := by decide

/-- V95, V97, V98: the order of the common checks. -/
theorem test_common_checks : bank0After (bankOf 20 []) [0x10300000] = some (bankOf 20 [], [[0x12]]) ∧
    bank0After (bankOf 20 []) [0x40300001] = some (bankOf 20 [], [[0x11]]) ∧
    bank1After (bankOf 20 []) Bank.unconstructed [0x10110000] = some (Bank.unconstructed, [[0x11]]) := by decide

/-- R230: reset gets no response. -/
theorem test_reset : seen (step (stateOf (bankOf 20 [(3, 9)]) (bankOf 0 []) [.reset none])) =
    some ([Bank.unconstructed, Bank.unconstructed], []) := by decide

/-- R35: the state after reset. -/
theorem test_reset_state : State.reset = ⟨⟨2, 20, 6⟩, [⟨false, 0, []⟩, ⟨false, 0, []⟩], [], []⟩ := by decide

/-- The first packet after reset is the one that is placed (R100). -/
theorem test_withFetchWord : seen (step (State.reset.withFetchWord 32 0x01100000)) =
    some ([Bank.unconstructed, bankOf 20 []], [[0]]) := by decide

/-! ## The assembler (R80, R81) -/

theorem test_assemble_setBytes : assembleLine "setBytes b0, 1, 3, [0xAA, 0xBB, 204] ; three bytes".toList =
    some [.setBytes 0 1 3 [0xAA, 0xBB, 0xCC]] := by decide

theorem test_assemble_setBits : assembleLine "setBits b1, [0, 8], [true, 0]".toList =
    some [.setBits 1 [0, 8] [1, 0]] := by decide

theorem test_assemble_empty_list : assembleLine "construct b15, []".toList = some [.construct 15 []] := by decide

theorem test_assemble_copy : assembleLine "copy b1, b0".toList = some [.copy 1 0] := by decide

theorem test_assemble_clearBit : assembleLine "clearBit b1, 6   ; pseudo: setBit b1, 6, 0".toList =
    some [.setBit 1 6 0] := by decide

/-- V101. -/
theorem test_assemble_rotateLeftN : assembleLine "rotateLeftN b0, 3".toList =
    some [.rotateLeft 0, .rotateLeft 0, .rotateLeft 0] ∧ assembleLine "rotateLeftN b0, 0".toList = some [] := by decide

/-- The model's choice for a text with a refused line (log entry 9). -/
theorem test_assembleLines : assembleLines ["rotateLeft b0".toList, [], "copy b1, b0".toList] = some [.rotateLeft 0, .copy 1 0] ∧
    assembleLines ["rotateLeft b0".toList, "getLength b16".toList] = none := by decide

theorem test_assemble_refuses_byte : assembleLine "setByte b1, 3, 256".toList = none := by decide

theorem test_assemble_refuses_bank : assembleLine "getLength b16".toList = none := by decide

theorem test_assemble_refuses_index : assembleLine "getBit b0, 65536".toList = none := by decide

theorem test_assemble_refuses_bit : assembleLine "setBit b0, 1, 2".toList = none := by decide

/-! ## Witnesses: values that meet the hypotheses of each statement, clause by clause -/

/-- A bank of 20 bytes that validates with `CSUM_LO = 6`: bytes 0, 6 and 16 and the checksum byte are listed. -/
def sample : Bank := bankOf 20 [(0, 0x81), (6, 0xFF), (16, 0x03), (17, 0x02)]

/-- `sample` in bank 0, bank 1 unconstructed, and one packet presented. -/
def sampleState : State := presented sample [0x04000000]

theorem witness_ready : Ready sampleState 0 := by decide

theorem witness_DecodeOfEncode : (Instr.setBits 15 [0, 65535] [1]).wellFormed = true := by decide

theorem witness_EncodeOfDecode :
    decode [0x13F00002, 0x00010000, 0x00000000, 0x0000FFFF, 0x00000001] = .accept (.setBits 15 [0, 65535] [1]) := by decide

/-- Headers below the first assigned opcode, in a gap between two families, and above the last one. -/
theorem witness_UnassignedOpcodesAreIllegal :
    (presented sample [0x05FFFFFF, 0xFFFFFFFF]).port = .packet (0x05FFFFFF :: [0xFFFFFFFF]) :: [] ∧
    (0x00FFFFFF : Word).toNat / 2 ^ 24 ∉
      [0x01, 0x02, 0x03, 0x04, 0x10, 0x11, 0x12, 0x13, 0x20, 0x21, 0x22, 0x23, 0x30, 0x31, 0x40, 0x41] ∧
    (0x05FFFFFF : Word).toNat / 2 ^ 24 ∉
      [0x01, 0x02, 0x03, 0x04, 0x10, 0x11, 0x12, 0x13, 0x20, 0x21, 0x22, 0x23, 0x30, 0x31, 0x40, 0x41] ∧
    (0xFF000000 : Word).toNat / 2 ^ 24 ∉
      [0x01, 0x02, 0x03, 0x04, 0x10, 0x11, 0x12, 0x13, 0x20, 0x21, 0x22, 0x23, 0x30, 0x31, 0x40, 0x41] :=
  ⟨rfl, by decide, by decide, by decide⟩

/-- The empty packet; a header with one word too many; a header without its operand word; and one payload word too few. -/
theorem witness_DeclaredLengthIsEnforced :
    (presented sample []).port = .packet [] :: [] ∧
    opcodeOf (fieldOp 0x40000000) = some .rotateLeft ∧ [(0 : Word)].length + 1 ≠ Opcode.rotateLeft.wordsOf 0x40000000 [0] ∧
    opcodeOf (fieldOp 0x23000000) = some .setBytes ∧ ([] : Packet).length + 1 ≠ Opcode.setBytes.wordsOf 0x23000000 [] ∧
    opcodeOf (fieldOp 0x13000001) = some .setBits ∧
    [0x00010000, (0 : Word)].length + 1 ≠ Opcode.setBits.wordsOf 0x13000001 [0x00010000, 0] ∧
    (presented sample [0x40000000, 0]).port = .packet (0x40000000 :: [0]) :: [] := by decide

/-- A reserved bit in the header, in an operand word, in an index word and in a value word; and a packet with none. -/
theorem witness_ReservedBitsAreRefused :
    opcodeOf (fieldOp 0x40000001) = some .rotateLeft ∧ ([] : Packet).length + 1 = Opcode.rotateLeft.wordsOf 0x40000001 [] ∧
    Opcode.rotateLeft.ReservedBitSet 0x40000001 [] ∧
    opcodeOf (fieldOp 0x13000001) = some .setBits ∧
    [0x00010001, 0, (0 : Word)].length + 1 = Opcode.setBits.wordsOf 0x13000001 [0x00010001, 0, 0] ∧
    Opcode.setBits.ReservedBitSet 0x13000001 [0x00010001, 0, 0] ∧
    Opcode.setBits.ReservedBitSet 0x13000001 [0x00010000, 0x00010000, 0] ∧
    Opcode.setBits.ReservedBitSet 0x13000001 [0x00010000, 0, 2] ∧
    (presented sample [0x40000001]).port = .packet (0x40000001 :: []) :: [] :=
  ⟨by decide, by decide, ⟨0, _, rfl, by decide⟩, by decide, by decide, ⟨1, _, rfl, by decide⟩, ⟨2, _, rfl, by decide⟩,
    ⟨3, _, rfl, by decide⟩, rfl⟩

theorem witness_TransportIsLeastSignificantFirst : [(0x01000000 : Word), 0x02000001][1]? = some 0x02000001 ∧ 0 < 4 ∧ 3 < 4 := by
  decide

theorem witness_StepRunsTheDecodedCommand :
    sampleState.port = .packet [0x04000000] :: [] ∧ decode [0x04000000] = .accept (.getLength 0) ∧
    (Instr.getLength 0).wellFormed = true := by decide

theorem witness_IdleHoldsTheState : (stateOf sample Bank.unconstructed []).port = [] := rfl

theorem witness_EveryPacketGetsOneResponse : (presented sample [0x05000000]).port = .packet [0x05000000] :: [] := rfl

/-- A completed command and a failed one. -/
theorem witness_ResponsesHaveTheirFormat :
    sampleState.WF ∧ sampleState.port = .packet [0x04000000] :: [] ∧ (∃ t, step sampleState = .next t) ∧
    (presented sample [0x200000FF]).WF ∧ ∃ t, step (presented sample [0x200000FF]) = .next t :=
  ⟨by decide, rfl, ⟨_, rfl⟩, by decide, ⟨_, rfl⟩⟩

theorem witness_ErrorsLeaveNoTrace :
    ∃ t, step (presented sample [0x200000FF]) = .next t ∧ t.out = (presented sample [0x200000FF]).out ++ [7 :: []] ∧
      (7 : Word).extractLsb' 0 8 ≠ 0 := ⟨_, rfl, by decide, by decide⟩

/-- One packet for each of the eight common checks, at the boundary of the range it checks. -/
theorem witness_CommonChecksInOrder :
    opcodeOf (fieldOp 0x42000000) = none ∧ opcodeOf (fieldOp 0x10000000) = some .getBit ∧
    [(0 : Word)].length + 1 ≠ Opcode.getBit.wordsOf 0x10000000 [0] ∧
    ([] : Packet).length + 1 = Opcode.getBit.wordsOf 0x10010000 [] ∧ Opcode.getBit.ReservedBitSet 0x10010000 [] ∧
    sampleState.cfg.nb ≤ (fieldBk 0x10200000).toNat ∧ (fieldBk 0x10100000).toNat < sampleState.cfg.nb ∧
    (sampleState.bank (fieldBk 0x10100000)).valid = false ∧
    opcodeOf (fieldOp 0x03010000) = some .copy ∧ (sampleState.bank (fieldAux 0x03010000)).valid = false ∧
    sampleState.cfg.nb ≤ (fieldAux 0x03020000).toNat ∧
    opcodeOf (fieldOp 0x02000015) = some .construct ∧ sampleState.cfg.cap < (fieldA 0x02000015).toNat ∧
    (List.replicate 21 (0 : Word)).length + 1 = Opcode.construct.wordsOf 0x02000015 (List.replicate 21 0) :=
  ⟨by decide, by decide, by decide, by decide, ⟨0, _, rfl, by decide⟩, by decide, by decide, by decide, by decide, by decide,
    by decide, by decide, by decide, by decide⟩

/-- The packets with no reserved bit that the last four common checks are asked of. -/
theorem witness_CommonChecksInOrder_no_reserved_bit :
    ¬ Opcode.getBit.ReservedBitSet 0x10100000 [] ∧ ¬ Opcode.copy.ReservedBitSet 0x03010000 [] := by
  have h : ∀ (o : Opcode) (w : Word), w &&& o.reservedBits (fieldA w).toNat 0 = 0 → ¬ o.ReservedBitSet w [] := by
    rintro o w hw ⟨k, v, hk, hv⟩
    cases k with
    | zero => cases hk; exact hv hw
    | succ k => simp at hk
  exact ⟨h _ _ (by decide), h _ _ (by decide)⟩

theorem witness_OutcomesAreNotRetained : ∃ t, step sampleState = .next t := ⟨_, rfl⟩

theorem witness_PacketsEndAfterAsManySteps : (stateOf sample Bank.unconstructed []).port = [] := rfl

/-- The least and the greatest legal parameters. -/
theorem witness_ResetMeetsTheInvariant : (⟨1, 20, 0⟩ : Config).Legal ∧ (⟨16, 8192, 6⟩ : Config).Legal := by decide

theorem witness_EveryStepKeepsTheInvariant : sampleState.WF ∧ ∃ t, step sampleState = .next t := ⟨by decide, ⟨_, rfl⟩⟩

theorem witness_ResetUnconstructsEveryBank :
    (stateOf sample sample [.reset (some [0x40000000])]).port = .reset (some [0x40000000]) :: [] := rfl

theorem witness_UnconstructedBanksAreReported :
    (Instr.getLength 1).constructs = false ∧ (1 : BankNo).toNat < sampleState.cfg.nb ∧ (sampleState.bank 1).valid = false ∧
    sampleState.WF ∧ (Instr.newEmptyBuffer 1).constructs = true ∧
    (∃ t, exec (.newEmptyBuffer 1) sampleState = .next t ∧ t.out = sampleState.out ++ [[0]]) ∧
    (sampleState.bank 0).valid = true ∧ (stateOf sample sample [.reset none]).port = .reset none :: [] :=
  ⟨rfl, by decide, by decide, by decide, rfl, ⟨_, rfl, by decide⟩, by decide, rfl⟩

theorem witness_AfterResetOnlyConstructionWorks :
    (stateOf sample sample [.reset none, .packet [0x04100000]]).port = .reset none :: .packet [0x04100000] :: [] ∧
    decode [0x04100000] = .accept (.getLength 1) ∧ (Instr.getLength 1).bank.toNat < (stateOf sample sample []).cfg.nb ∧
    (Instr.getLength 1).constructs = false ∧
    decode [0x03010000] = .accept (.copy 0 1) ∧ (Instr.copy 0 1).copies = true := by decide

/-- Two states that differ in an unconstructed bank, and only there. -/
theorem witness_UnconstructedContentsAreInvisible :
    SameVisible sampleState (stateOf sample ⟨false, 7, [(2, 9)]⟩ [.packet [0x04000000]]) ∧
    sampleState ≠ stateOf sample ⟨false, 7, [(2, 9)]⟩ [.packet [0x04000000]] ∧ ∃ t, step sampleState = .next t :=
  ⟨⟨rfl, rfl, rfl, rfl, by decide⟩, by decide, ⟨_, rfl⟩⟩

/-- Two states that differ in another bank than the one the command names. -/
theorem witness_BanksAreIndependent :
    (∃ t, exec (.rotateLeft 0) sampleState = .next t) ∧ (1 : BankNo) ≠ (Instr.rotateLeft 0).bank ∧
    (Instr.rotateLeft 0).copies = false ∧ sampleState.bank 0 = (stateOf sample sample []).bank 0 ∧
    sampleState.cfg = (stateOf sample sample []).cfg ∧ sampleState.out = (stateOf sample sample []).out ∧
    sampleState.banks.length = (stateOf sample sample []).banks.length ∧
    ∃ t, exec (.rotateLeft 0) (stateOf sample sample []) = .next t :=
  ⟨⟨_, rfl⟩, by decide, rfl, rfl, rfl, rfl, rfl, ⟨_, rfl⟩⟩

theorem witness_ParametersAreFixed : ∃ t, step sampleState = .next t := ⟨_, rfl⟩

theorem witness_LengthIsFixedByConstruction :
    (Instr.setByte 0 1 2).constructs = false ∧ ∃ t, exec (.setByte 0 1 2) sampleState = .next t := ⟨rfl, ⟨_, rfl⟩⟩

/-- A reading command, an idempotent one, and a rotation of the shortest bank that has a counter byte. -/
theorem witness_ReadsAndRepeats :
    (Instr.getByte 0 0).reads = true ∧ (∃ t, exec (.getByte 0 0) sampleState = .next t) ∧
    sampleState.WF ∧ (∀ bk, Instr.setByte 0 1 2 ≠ .rotateLeft bk ∧ Instr.setByte 0 1 2 ≠ .rotateRight bk) ∧
    (∃ t u, exec (.setByte 0 1 2) sampleState = .next t ∧ exec (.setByte 0 1 2) t = .next u) ∧
    Ready (presented (bankOf 17 []) []) 0 ∧ 17 ≤ ((presented (bankOf 17 []) []).bank 0).len ∧
    ∃ t u, exec (.rotateLeft 0) (presented (bankOf 17 []) []) = .next t ∧ exec (.rotateLeft 0) t = .next u :=
  ⟨rfl, ⟨_, rfl⟩, by decide, fun _ => ⟨nofun, nofun⟩, ⟨_, _, rfl, rfl⟩, by decide, by decide, ⟨_, _, rfl, rfl⟩⟩

theorem witness_NewEmptyBufferCompletes : sampleState.WF ∧ (1 : BankNo).toNat < sampleState.cfg.nb := by decide

/-- Exactly `CAP` bytes, and one more. -/
theorem witness_ConstructCompletes :
    sampleState.WF ∧ (1 : BankNo).toNat < sampleState.cfg.nb ∧
    (List.replicate 20 (0xFF : Byte)).length < 65536 ∧ (List.replicate 20 (0xFF : Byte)).length ≤ sampleState.cfg.cap ∧
    sampleState.cfg.cap < (List.replicate 21 (0xFF : Byte)).length := by decide

/-- The last bank number, the first one beyond it, and an unconstructed source. -/
theorem witness_CopyCompletes :
    sampleState.WF ∧ sampleState.cfg.nb ≤ (2 : BankNo).toNat ∧ (1 : BankNo).toNat < sampleState.cfg.nb ∧
    (0 : BankNo).toNat < sampleState.cfg.nb ∧ (sampleState.bank 0).valid = true ∧ (sampleState.bank 1).valid = false := by decide

theorem witness_GetLengthCompletes :
    sampleState.WF ∧ (0 : BankNo).toNat < sampleState.cfg.nb ∧ (sampleState.bank 0).valid = true ∧
    (1 : BankNo).toNat < sampleState.cfg.nb ∧ (sampleState.bank 1).valid = false := by decide

/-- The last bit index and the first one beyond it, for getBit and setBit. -/
theorem witness_bit_index :
    Ready sampleState 0 ∧ (159 : Half).toNat < 8 * (sampleState.bank 0).len ∧
    8 * (sampleState.bank 0).len ≤ (160 : Half).toNat := by decide

theorem witness_GetBitsCompletes :
    Ready sampleState 0 ∧ [(159 : Half), 0].length < 65536 ∧
    (∀ i ∈ [(159 : Half), 0], i.toNat < 8 * (sampleState.bank 0).len) ∧
    ∃ i ∈ [(159 : Half), 160], 8 * (sampleState.bank 0).len ≤ i.toNat :=
  ⟨by decide, by decide, by simp only [List.forall_mem_cons]; exact ⟨by decide, by decide, by simp⟩, 160, by decide, by decide⟩

theorem witness_SetBitsCompletes :
    Ready sampleState 0 ∧ [(159 : Half), 160].length < 65536 ∧ [(1 : Bit)].length < 65536 ∧
    [(159 : Half), 160].length ≠ [(1 : Bit)].length ∧ [(159 : Half), 160].length = [(1 : Bit), 0].length ∧
    (∃ i ∈ [(159 : Half), 160], 8 * (sampleState.bank 0).len ≤ i.toNat) ∧
    ∀ i ∈ [(159 : Half), 159], i.toNat < 8 * (sampleState.bank 0).len :=
  ⟨by decide, by decide, by decide, by decide, by decide, ⟨160, by decide, by decide⟩,
    by simp only [List.forall_mem_cons]; exact ⟨by decide, by decide, by simp⟩⟩

theorem witness_SetBitsOrderIsFree :
    sampleState.WF ∧ [(1 : Half), 3, 6].Nodup ∧ [(1 : Half), 3, 6].length = [(1 : Bit), 0, 1].length ∧
    [(6 : Half), 3, 1].length = [(1 : Bit), 0, 1].length ∧
    ([(1 : Half), 3, 6].zip [(1 : Bit), 0, 1]).Perm ([(6 : Half), 3, 1].zip [(1 : Bit), 0, 1]) := by decide

/-- The last byte index and the first one beyond it, for getByte and setByte. -/
theorem witness_byte_index :
    Ready sampleState 0 ∧ (19 : Half).toNat < (sampleState.bank 0).len ∧ (sampleState.bank 0).len ≤ (20 : Half).toNat := by decide

theorem witness_GetBytesCompletes :
    Ready sampleState 0 ∧ (18 : Half).toNat < (19 : Half).toNat ∧ (19 : Half).toNat ≤ (20 : Half).toNat ∧
    (sampleState.bank 0).len ≤ (20 : Half).toNat ∧ (19 : Half).toNat ≤ (19 : Half).toNat ∧
    (19 : Half).toNat < (sampleState.bank 0).len := by decide

/-- A count that differs by one; the empty range, `first = last + 1` with no values; a range that ends at `LEN`; and the last byte. -/
theorem witness_SetBytesCompletes :
    Ready sampleState 0 ∧ [(1 : Byte)].length < 65536 ∧ [(1 : Byte)].length + (18 : Half).toNat ≠ (19 : Half).toNat + 1 ∧
    ([] : List Byte).length + (4 : Half).toNat = (3 : Half).toNat + 1 ∧ (3 : Half).toNat < (4 : Half).toNat ∧
    [(1 : Byte), 2].length + (19 : Half).toNat = (20 : Half).toNat + 1 ∧ (19 : Half).toNat ≤ (20 : Half).toNat ∧
    (sampleState.bank 0).len ≤ (20 : Half).toNat ∧
    [(1 : Byte), 2].length + (18 : Half).toNat = (19 : Half).toNat + 1 ∧ (18 : Half).toNat ≤ (19 : Half).toNat ∧
    (19 : Half).toNat < (sampleState.bank 0).len := by decide

theorem witness_SetBytesThenGetBytes :
    Ready sampleState 0 ∧ (18 : Half).toNat ≤ (19 : Half).toNat ∧ (19 : Half).toNat < (sampleState.bank 0).len ∧
    [(1 : Byte), 2].length + (18 : Half).toNat = (19 : Half).toNat + 1 := by decide

theorem witness_BitAndByteViewsAgree :
    Ready sampleState 0 ∧ (19 : Half).toNat < (sampleState.bank 0).len ∧ (7 : Half).toNat < 8 ∧
    (159 : Half).toNat = 8 * (19 : Half).toNat + (7 : Half).toNat := by decide

/-- A bank of 17 bytes has no checksum byte and one of 18 has; a checksum byte that is right and one that is not. -/
theorem witness_checksum_commands :
    Ready (presented (bankOf 17 []) []) 0 ∧ ((presented (bankOf 17 []) []).bank 0).len ≤ 17 ∧
    Ready (presented (bankOf 18 [(17, 1)]) []) 0 ∧ 17 < ((presented (bankOf 18 [(17, 1)]) []).bank 0).len ∧
    (((presented (bankOf 18 [(17, 1)]) []).bank 0).byte 17).toNat ≠
      ((presented (bankOf 18 [(17, 1)]) []).bank 0).checksumValue (presented (bankOf 18 [(17, 1)]) []).cfg.csumLo ∧
    (((presented (bankOf 18 []) []).bank 0).byte 17).toNat =
      ((presented (bankOf 18 []) []).bank 0).checksumValue (presented (bankOf 18 []) []).cfg.csumLo := by decide

/-- A summed byte, the checksum byte, the byte below the summed range and the byte above the checksum byte. -/
theorem witness_ChecksumDetectsOneChangedByte :
    Ready sampleState 0 ∧ 17 < (sampleState.bank 0).len ∧
    ((sampleState.bank 0).byte 17).toNat = (sampleState.bank 0).checksumValue sampleState.cfg.csumLo ∧
    (18 : Half).toNat < (sampleState.bank 0).len ∧
    (sampleState.cfg.csumLo ≤ (6 : Half).toNat ∧ (6 : Half).toNat ≤ 17 ∧ (0xAA : Byte) ≠ (sampleState.bank 0).byte (6 : Half).toNat) ∧
    (sampleState.cfg.csumLo ≤ (17 : Half).toNat ∧ (17 : Half).toNat ≤ 17 ∧
      (0xAA : Byte) ≠ (sampleState.bank 0).byte (17 : Half).toNat) ∧
    (5 : Half).toNat < sampleState.cfg.csumLo ∧ 17 < (18 : Half).toNat ∧ (0x03 : Byte) = (sampleState.bank 0).byte 16 := by decide

theorem witness_WindowIsBigEndian : 0 < 16 ∧ 15 < 16 ∧ 0 < 8 ∧ 7 < 8 := by decide

/-- A bank of 16 bytes has no counter byte and one of 17 has. -/
theorem witness_rotation_commands :
    Ready (presented (bankOf 16 []) []) 0 ∧ ((presented (bankOf 16 []) []).bank 0).len ≤ 16 ∧
    Ready (presented (bankOf 17 [(0, 0x80)]) []) 0 ∧ 17 ≤ ((presented (bankOf 17 [(0, 0x80)]) []).bank 0).len := by decide

/-- The packets of an expansion, with another packet after them. -/
theorem witness_PseudoInstructionsExpand :
    (stateOf sample sample [.packet [0x40000000], .packet [0x40000000], .packet [0x04000000]]).port =
      (Pseudo.rotateLeftN 0 2).expand.map (fun i => Input.packet (encode i)) ++ [.packet [0x04000000]] ∧
    (stateOf sample sample [.packet [0x41000000]]).port =
      (Pseudo.rotateRightN 0 1).expand.map (fun i => Input.packet (encode i)) ++ [] := by decide

/-- Lines whose operands are at the limit of their fields and one beyond it, each with its text; and a comment. -/
theorem witness_AssembledLinesDecode :
    (Line.setByte 15 ⟨false, [('6', 6), ('5', 5), ('5', 5), ('3', 3), ('5', 5)]⟩ ⟨true, [('F', 15), ('F', 15)]⟩).Written ∧
    (Line.setByte 15 ⟨false, [('6', 6), ('5', 5), ('5', 5), ('3', 3), ('5', 5)]⟩ ⟨true, [('F', 15), ('F', 15)]⟩).text =
      "setByte b15, 65535, 0xFF".toList ∧
    (Line.setByte 16 ⟨false, [('6', 6), ('5', 5), ('5', 5), ('3', 3), ('6', 6)]⟩ ⟨false, [('2', 2), ('5', 5), ('6', 6)]⟩).Written ∧
    (Line.setBits 0 [⟨true, [('0', 0), ('A', 10)]⟩] ["true".toList, "2".toList]).Written ∧
    (Line.setBits 0 [⟨true, [('0', 0), ('A', 10)]⟩] ["true".toList, "2".toList]).text =
      "setBits b0, [0x0A], [true, 2]".toList ∧
    (Line.rotateLeftN 0 ⟨false, [('0', 0)]⟩).Written ∧
    " ; nothing".toList = ' ' :: ';' :: " nothing".toList := by
  refine ⟨⟨⟨by decide, by decide⟩, by decide, by decide⟩, by decide, ⟨⟨by decide, by decide⟩, by decide, by decide⟩,
    ⟨?_, ?_⟩, by decide, ⟨by decide, by decide⟩, by decide⟩
  · simpa using ⟨by decide, by decide⟩
  · intro v hv
    simp only [List.mem_cons, List.not_mem_nil, or_false] at hv
    rcases hv with rfl | rfl <;> simp [IsWord]

/-- A line that is accepted, with a command of it. -/
theorem witness_AssembledLinesDecode_accepted :
    assembleLine "setByte b1, 3, 0x99".toList = some [.setByte 1 3 0x99] ∧ Instr.setByte 1 3 0x99 ∈ [Instr.setByte 1 3 0x99] := by
  decide

end Sys2Proof.Tests
end

section
/-! SUPPORT. The statements of 00_scope.md: what one step does with each input of the port, once, and the state after reset. -/

namespace Sys2Proof.Machine

/-! ### The cases of a step -/

section Step
variable {s t : State} {p : Packet} {q : List Input}

theorem step_of_idle (hp : s.port = []) : step s = .next s := by rw [step, hp]

theorem step_of_reset {cut : Option Packet} (hp : s.port = .reset cut :: q) : step s = .next s.takeReset := by
  rw [step, hp]

theorem step_of_accept {i : Instr} (hp : s.port = .packet p :: q) (hd : decode p = .accept i) : step s = exec i s := by
  simp only [step, hp, hd]

theorem step_of_reject {e : Reject} (hp : s.port = .packet p :: q) (hd : decode p = .reject e) :
    step s = raise (rejectStatus e) s := by
  simp only [step, hp, hd]

/-- The next state of a step on a packet, in full: the decoder's status code is answered, or the command raises a status code of its
own, or it commits its own bank. -/
theorem step_packet_next (hp : s.port = .packet p :: q) (h : step s = .next t) :
    (∃ e : Reject, decode p = .reject e ∧ t = s.answered s.banks [(rejectStatus e).code.setWidth 32]) ∨
    (∃ (i : Instr) (c : Status), decode p = .accept i ∧ c.raised = true ∧ t = s.answered s.banks [c.code.setWidth 32]) ∨
    (∃ (i : Instr) (b : Bank) (rs : List Word), decode p = .accept i ∧ Committed i s b ∧
      t = s.answered (s.setBank i.bank b).banks (BitVec.ofNat 32 (rs.length * 65536) :: rs)) := by
  cases hd : decode p with
  | reject e =>
    rw [step_of_reject hp hd, raise_eq] at h
    cases h
    exact .inl ⟨e, rfl, rfl⟩
  | accept i =>
    rw [step_of_accept hp hd] at h
    rcases exec_next h with ⟨c, hc, rfl⟩ | ⟨b, rs, hb, rfl⟩
    · exact .inr (.inl ⟨i, c, rfl, hc, rfl⟩)
    · exact .inr (.inr ⟨i, b, rs, rfl, hb, rfl⟩)

end Step

/-! ### The code in a response -/

/-- The status word of a completed command carries the code OK, however many results it counts (R75). -/
theorem okWord_code (n : Nat) : (BitVec.ofNat 32 (n * 65536)).extractLsb' 0 8 = 0#8 := by
  apply BitVec.eq_of_toNat_eq
  simp only [BitVec.extractLsb'_toNat, BitVec.toNat_ofNat, Nat.shiftRight_zero]
  omega

/-- The response of an answered state is the packet it was answered with. -/
theorem answered_out_inj {s : State} {bs : List Bank} {p r : Packet} (h : (s.answered bs p).out = s.out ++ [r]) : p = r := by
  rw [answered_out] at h
  exact List.singleton_inj.mp (List.append_cancel_left h)

/-- Settles O13: by the cases of a step on a packet. The decoder's codes and a command's own keep every bank, and the word that a
committed command answers with carries the code OK. -/
theorem errorsLeaveNoTrace : Obligations.ErrorsLeaveNoTrace := by
  intro s t p q w results hp hstep hout hcode
  rcases step_packet_next hp hstep with ⟨e, -, rfl⟩ | ⟨i, c, -, -, rfl⟩ | ⟨i, b, rs, -, -, rfl⟩
  · cases answered_out_inj hout
    rfl
  · cases answered_out_inj hout
    rfl
  · have hw := (List.cons.inj (answered_out_inj hout)).1
    rw [← hw, okWord_code] at hcode
    exact absurd rfl hcode

/-- Settles O8: the accepted case of a step. -/
theorem stepRunsTheDecodedCommand : Obligations.StepRunsTheDecodedCommand :=
  fun _ _ _ _ hp hd _ => step_of_accept hp hd

/-! ### The state after reset -/

theorem unconstructed_wf (cap : Nat) : Bank.unconstructed.WF cap :=
  ⟨Nat.zero_le cap, ⟨.nil, List.forall_mem_nil _⟩, List.forall_mem_nil _⟩

theorem resetOf_wf {c : Config} (hc : c.Legal) : (State.resetOf c).WF := by
  refine ⟨hc, List.length_replicate, fun b hb => ?_⟩
  rw [List.eq_of_mem_replicate hb]
  exact unconstructed_wf _

theorem default_legal : Config.default.Legal := by decide

/-- Settles O17: every bank after reset is unconstructed, and an unconstructed bank fits any capacity. -/
theorem resetMeetsTheInvariant : Obligations.ResetMeetsTheInvariant :=
  ⟨fun _ hc => resetOf_wf hc, resetOf_wf default_legal, rfl⟩

end Sys2Proof.Machine
end

section
/-! SUPPORT. The statements of 10_state.md: what a command or a step leaves in each bank, and on what of the state it depends. -/

namespace Sys2Proof.Machine

/-! ### The inputs of a step -/

/-- What a step can find at the port: nothing, a packet, or reset. -/
theorem port_cases (s : State) :
    s.port = [] ∨ (∃ p q, s.port = .packet p :: q) ∨ ∃ cut q, s.port = .reset cut :: q := by
  rcases s.port with _ | ⟨p | cut, q⟩
  · exact .inl rfl
  · exact .inr (.inl ⟨p, q, rfl⟩)
  · exact .inr (.inr ⟨cut, q, rfl⟩)

/-! ### Each bank after one bank is set -/

/-- Every bank after one is set: a number beyond the list of banks stands for no bank, so setting it changes none. -/
theorem setBank_bank (s : State) (k : BankNo) (b : Bank) (j : BankNo) :
    (s.setBank k b).bank j = if j = k ∧ k.toNat < s.banks.length then b else s.bank j := by
  by_cases hj : j = k
  · subst hj
    by_cases hl : j.toNat < s.banks.length
    · rw [if_pos ⟨rfl, hl⟩, setBank_bank_same b hl]
    · rw [if_neg fun h => hl h.2]
      simp [State.bank, State.setBank, hl]
  · rw [if_neg fun h => hj h.1, setBank_bank_other s b hj]

/-- A bank that a command may have committed meets what both the committed bank and the bank as it was before meet. -/
theorem setBank_bank_induction {P : Bank → Prop} {s : State} {k : BankNo} {b : Bank} {j : BankNo}
    (hset : j = k → P b) (hkept : P (s.bank j)) : P ((s.setBank k b).bank j) := by
  rw [setBank_bank]
  split
  · next h => exact hset h.1
  · exact hkept

/-! ### The invariant -/

theorem setBank_wf {s : State} (hs : s.WF) {k : BankNo} {b : Bank} (hb : b.WF s.cfg.cap) : (s.setBank k b).WF := by
  obtain ⟨hcfg, hlen, hbanks⟩ := hs
  refine ⟨hcfg, by simpa using hlen, fun x hx => ?_⟩
  rcases List.mem_or_eq_of_mem_set hx with hx | rfl
  · exact hbanks x hx
  · exact hb

/-- The invariant says nothing of the port and the responses, so answering keeps it. -/
theorem answered_wf {s : State} (hs : s.WF) (p : Packet) : (s.answered s.banks p).WF := hs

theorem takeReset_wf {s : State} (hs : s.WF) : s.takeReset.WF := resetOf_wf hs.1

/-- Settles O18: by the inputs a step can take. A reset leaves banks that fit; a packet is answered with a status code and keeps every
bank, or it commits one bank that fits. -/
theorem everyStepKeepsTheInvariant : Obligations.EveryStepKeepsTheInvariant := by
  intro s t hs hstep
  obtain hp | ⟨p, q, hp⟩ | ⟨cut, q, hp⟩ := port_cases s
  · rw [step_of_idle hp] at hstep
    cases hstep
    exact hs
  · rcases step_packet_next hp hstep with ⟨e, -, rfl⟩ | ⟨i, c, -, -, rfl⟩ | ⟨i, b, rs, -, hb, rfl⟩
    · exact answered_wf hs _
    · exact answered_wf hs _
    · exact answered_wf (setBank_wf hs (hb.wf hs)) _
  · rw [step_of_reset hp] at hstep
    cases hstep
    exact takeReset_wf hs

/-! ### On what of the state a command depends -/

/-- Bank `k` is constructed in both states or in neither, and where it is constructed it is the same bank. -/
def SameVisibleAt (s s' : State) (k : BankNo) : Prop :=
  (s.bank k).valid = (s'.bank k).valid ∧ ((s.bank k).valid = true → s.bank k = s'.bank k)

theorem sameVisibleAt_of_bank_eq {s s' : State} {k : BankNo} (h : s.bank k = s'.bank k) : SameVisibleAt s s' k :=
  ⟨congrArg Bank.valid h, fun _ => h⟩

theorem sameVisible_iff {s s' : State} : SameVisible s s' ↔
    s.cfg = s'.cfg ∧ s.port = s'.port ∧ s.out = s'.out ∧ s.banks.length = s'.banks.length ∧ ∀ k, SameVisibleAt s s' k :=
  Iff.rfl

/-- The bank that a copy from bank `src` makes, or the status code of its own check (R102). -/
def copyMade (s : State) (src : BankNo) : Except Status Bank :=
  if s.hasBank src = false ∨ (s.bank src).valid = false then .error .copySource
  else .ok ⟨true, (s.bank src).len, (s.bank src).bytes⟩

theorem exec_copy (bk src : BankNo) (s : State) : exec (.copy bk src) s = constructBank bk (copyMade s src) s := rfl

theorem copyMade_unconstructed {s : State} {src : BankNo} (h : (s.bank src).valid = false) :
    copyMade s src = .error .copySource := if_pos (.inr h)

section Settle
variable {s s' : State} {k : BankNo}

theorem settle_error (k : BankNo) (c : Status) (s : State) :
    settle k (.error c) s = .next (s.answered s.banks [c.code.setWidth 32]) := raise_eq c s

theorem settle_ok (k : BankNo) (b : Bank) (rs : List Word) (s : State) :
    settle k (.ok (b, rs)) s =
      .next (s.answered (s.setBank k b).banks (BitVec.ofNat 32 (rs.length * 65536) :: rs)) := complete_eq rs (s.setBank k b)

/-- A command on a bank reads it only behind the check that it is constructed (the common check 7 of R77). -/
theorem onBank_settle_congr (body : Bank → Except Status (Bank × List Word)) (hcfg : s.cfg = s'.cfg)
    (hk : SameVisibleAt s s' k) :
    ∃ r, onBank k body s = settle k r s ∧ onBank k body s' = settle k r s' := by
  obtain ⟨hvalid, hbank⟩ := hk
  refine ⟨_, onBank_settle k body s, ?_⟩
  rw [onBank_settle k body s', ← hcfg, ← hvalid]
  cases hv : (s.bank k).valid with
  | false => rfl
  | true => rw [← hbank hv]

theorem constructBank_settle_congr (made : Except Status Bank) (hcfg : s.cfg = s'.cfg) :
    ∃ r, constructBank k made s = settle k r s ∧ constructBank k made s' = settle k r s' :=
  ⟨_, constructBank_settle k made s, by rw [constructBank_settle k made s', ← hcfg]⟩

/-- A copy finds the same source, or none, where the source bank looks the same. -/
theorem copyMade_congr {src : BankNo} (hcfg : s.cfg = s'.cfg) (hsrc : SameVisibleAt s s' src) :
    copyMade s src = copyMade s' src := by
  obtain ⟨hvalid, hbank⟩ := hsrc
  have hhas : s.hasBank src = s'.hasBank src := by rw [State.hasBank, State.hasBank, hcfg]
  cases hv : (s.bank src).valid with
  | false => rw [copyMade_unconstructed hv, copyMade_unconstructed (hvalid ▸ hv)]
  | true => rw [copyMade, copyMade, hhas, hbank hv]

/-- Two states with the same parameters in which a command's own bank looks the same, and for a copy every bank: the command decides
the same answer in both. -/
theorem exec_settle_congr (i : Instr) (hcfg : s.cfg = s'.cfg) (hown : SameVisibleAt s s' i.bank)
    (hsrc : i.copies = true → ∀ k, SameVisibleAt s s' k) :
    ∃ r, exec i s = settle i.bank r s ∧ exec i s' = settle i.bank r s' := by
  cases hi : i.constructs with
  | false =>
    obtain ⟨body, hbody⟩ := exec_onBank hi
    rw [hbody s, hbody s', ← hcfg]
    exact onBank_settle_congr _ hcfg hown
  | true =>
    cases i with
    | newEmptyBuffer bk => exact constructBank_settle_congr (.ok (Bank.zeros Config.emptyLen)) hcfg
    | construct bk vals =>
      have h : ∀ u, exec (.construct bk vals) u = constructBank bk
          (if u.cfg.cap < vals.length then .error .capacity else .ok (Bank.ofBytes vals)) u := fun _ => rfl
      rw [h s, h s', ← hcfg]
      exact constructBank_settle_congr _ hcfg
    | copy bk src =>
      rw [exec_copy bk src s, exec_copy bk src s', ← copyMade_congr hcfg (hsrc rfl src)]
      exact constructBank_settle_congr _ hcfg
    | _ => cases hi

/-- Two states with the same parameters in which every bank looks the same: a packet is answered the same in both. -/
theorem step_packet_settle_congr {p : Packet} {q q' : List Input} (hcfg : s.cfg = s'.cfg)
    (hbank : ∀ k, SameVisibleAt s s' k) (hp : s.port = .packet p :: q) (hp' : s'.port = .packet p :: q') :
    ∃ k r, step s = settle k r s ∧ step s' = settle k r s' := by
  cases hd : decode p with
  | reject e => exact ⟨0, .error (rejectStatus e), step_of_reject hp hd, step_of_reject hp' hd⟩
  | accept i =>
    rw [step_of_accept hp hd, step_of_accept hp' hd]
    exact ⟨i.bank, exec_settle_congr i hcfg (hbank i.bank) fun _ => hbank⟩

/-! ### What an unconstructed bank holds -/

theorem sameVisible_answered (h : SameVisible s s') (p : Packet) :
    SameVisible (s.answered s.banks p) (s'.answered s'.banks p) := by
  obtain ⟨hcfg, hport, hout, hlen, hbank⟩ := h
  exact ⟨hcfg, congrArg List.tail hport, congrArg (· ++ [p]) hout, hlen, hbank⟩

theorem sameVisible_setBank (h : SameVisible s s') (k : BankNo) (b : Bank) :
    SameVisible (s.setBank k b) (s'.setBank k b) := by
  obtain ⟨hcfg, hport, hout, hlen, hbank⟩ := h
  refine sameVisible_iff.mpr ⟨hcfg, hport, hout, by simpa using hlen, fun j => ?_⟩
  rw [SameVisibleAt, setBank_bank, setBank_bank, ← hlen]
  split
  · exact ⟨rfl, fun _ => rfl⟩
  · exact hbank j

theorem sameVisible_takeReset (h : SameVisible s s') : SameVisible s.takeReset s'.takeReset := by
  obtain ⟨hcfg, hport, hout, hlen, hbank⟩ := h
  refine sameVisible_iff.mpr ⟨hcfg, congrArg List.tail hport, hout, by simp [hcfg], fun k => ?_⟩
  exact sameVisibleAt_of_bank_eq (by simp)

theorem settle_sameVisible (h : SameVisible s s') (k : BankNo) (r : Except Status (Bank × List Word)) :
    ∃ t t', settle k r s = .next t ∧ settle k r s' = .next t' ∧ SameVisible t t' := by
  rcases r with c | ⟨b, rs⟩
  · exact ⟨_, _, settle_error k c s, settle_error k c s', sameVisible_answered h _⟩
  · exact ⟨_, _, settle_ok k b rs s, settle_ok k b rs s', sameVisible_answered (sameVisible_setBank h k b) _⟩

theorem step_sameVisible (h : SameVisible s s') : ∃ t t', step s = .next t ∧ step s' = .next t' ∧ SameVisible t t' := by
  obtain ⟨hcfg, hport, -, -, hbank⟩ := sameVisible_iff.mp h
  obtain hp | ⟨p, q, hp⟩ | ⟨cut, q, hp⟩ := port_cases s
  · exact ⟨s, s', step_of_idle hp, step_of_idle (hport ▸ hp), h⟩
  · obtain ⟨k, r, hs, hs'⟩ := step_packet_settle_congr hcfg hbank hp (hport ▸ hp)
    rw [hs, hs']
    exact settle_sameVisible h k r
  · exact ⟨_, _, step_of_reset hp, step_of_reset (hport ▸ hp), sameVisible_takeReset h⟩

end Settle

/-- Settles O22: a command looks at a bank only where it is constructed, so both states decide the same answer, and answering the same
keeps them alike. -/
theorem unconstructedContentsAreInvisible : Obligations.UnconstructedContentsAreInvisible := by
  intro s s' t h hstep
  obtain ⟨u, t', hu, ht', hsame⟩ := step_sameVisible h
  rw [hstep] at hu
  cases hu
  exact ⟨t', ht', hsame⟩

/-! ### The responses returned so far -/

/-- A decided answer appends its response, and does the same whatever was returned before. -/
theorem settle_with_out (k : BankNo) (r : Except Status (Bank × List Word)) (s : State) (o : List Packet) :
    ∃ t p, settle k r s = .next t ∧ t.out = s.out ++ [p] ∧
      settle k r { s with out := o } = .next { t with out := o ++ [p] } := by
  rcases r with c | ⟨b, rs⟩
  · exact ⟨_, _, settle_error k c s, rfl, settle_error k c _⟩
  · exact ⟨_, _, settle_ok k b rs s, rfl, settle_ok k b rs _⟩

/-- Settles O15: the answer to a packet is decided by the parameters and the banks, and the idle and the reset step return nothing. -/
theorem outcomesAreNotRetained : Obligations.OutcomesAreNotRetained := by
  intro s t o hstep
  obtain hp | ⟨p, q, hp⟩ | ⟨cut, q, hp⟩ := port_cases s
  · rw [step_of_idle hp] at hstep
    cases hstep
    exact ⟨[], by simp, by rw [List.append_nil]; exact step_of_idle hp⟩
  · obtain ⟨k, r, hs, hs'⟩ := step_packet_settle_congr (s := s) (s' := { s with out := o }) rfl
      (fun _ => sameVisibleAt_of_bank_eq rfl) hp hp
    obtain ⟨u, rsp, hu, hout, hu'⟩ := settle_with_out k r s o
    rw [hs, hu] at hstep
    cases hstep
    exact ⟨[rsp], hout, hs'.trans hu'⟩
  · rw [step_of_reset hp] at hstep
    cases hstep
    exact ⟨[], by simp, by rw [List.append_nil]; exact step_of_reset hp⟩

/-! ### VALID -/

/-- No status code that a command raises answers as a completed command does. -/
theorem code_ne_zero_of_raised {c : Status} (h : c.raised = true) : c.code.setWidth 32 ≠ (0 : Word) := by
  cases c <;> cases h <;> decide

theorem fails_of_raise {i : Instr} {s : State} {c : Status} (h : exec i s = raise c s) : Fails i s c.code.toNat := by
  rw [Fails, h, raise_eq, BitVec.ofNat_toNat]

/-- A command that constructs nothing, on an unconstructed bank (R23). -/
theorem exec_notConstructed {i : Instr} {s : State} (hi : i.constructs = false) (hb : i.bank.toNat < s.cfg.nb)
    (hv : (s.bank i.bank).valid = false) : exec i s = raise .notConstructed s := by
  obtain ⟨body, hbody⟩ := exec_onBank hi
  rw [hbody, onBank_notConstructed hb hv]

/-- A copy from an unconstructed bank (R102). -/
theorem exec_copy_unconstructed {bk src : BankNo} {s : State} (hb : bk.toNat < s.cfg.nb)
    (hv : (s.bank src).valid = false) : exec (.copy bk src) s = raise .copySource s := by
  rw [exec_copy, copyMade_unconstructed hv, constructBank_error hb]

/-- A command that completes leaves its bank constructed (R23). -/
theorem exec_completed_valid {i : Instr} {s t : State} (hs : s.WF) (h : exec i s = .next t)
    (hout : t.out = s.out ++ [[0]]) : (t.bank i.bank).valid = true := by
  rcases exec_next h with ⟨c, hc, rfl⟩ | ⟨b, rs, hb, rfl⟩
  · have hcode := (List.cons.inj (answered_out_inj hout)).1
    exact absurd hcode (code_ne_zero_of_raised hc)
  · have hlen : i.bank.toNat < s.banks.length := hs.2.1 ▸ hb.exists_
    rw [answered_bank_set, setBank_bank_same b hlen]
    exact hb.valid

/-- No command clears `VALID` (R23). -/
theorem exec_keeps_valid {i : Instr} {s t : State} {k : BankNo} (h : exec i s = .next t)
    (hv : (s.bank k).valid = true) : (t.bank k).valid = true := by
  rcases exec_next h with ⟨c, -, rfl⟩ | ⟨b, rs, hb, rfl⟩
  · exact hv
  · exact setBank_bank_induction (P := fun x => x.valid = true) (fun _ => hb.valid) hv

/-- Settles O20: the common check 7, copy's own check, what a completed command commits, and the step on a reset. -/
theorem unconstructedBanksAreReported : Obligations.UnconstructedBanksAreReported := by
  refine ⟨fun s i hi hb hv => ?_, fun s bk src hb hv => ?_, fun s t i hs _ h hout => ?_, fun s t i k h hv => ?_,
    fun s cut q hp => ?_⟩
  · exact fails_of_raise (exec_notConstructed hi hb hv)
  · exact fails_of_raise (exec_copy_unconstructed hb hv)
  · exact exec_completed_valid hs h hout
  · exact exec_keeps_valid h hv
  · exact ⟨s.takeReset, step_of_reset hp, fun k => by rw [takeReset_bank]; rfl⟩

/-! ### LEN -/

/-- Settles O25: such a command commits a bank of the length it found, in its own place or in none. -/
theorem lengthIsFixedByConstruction : Obligations.LengthIsFixedByConstruction := by
  intro s t i k hi h
  rcases exec_next h with ⟨c, -, rfl⟩ | ⟨b, rs, hb, rfl⟩
  · rfl
  · obtain ⟨-, hlen⟩ := hb.kept hi
    exact setBank_bank_induction (P := fun x => x.len = (s.bank k).len) (fun hk => hk ▸ hlen) rfl

/-! ### One bank and the others -/

/-- A command writes only the bank it names (R32). -/
theorem exec_bank_other {i : Instr} {s t : State} {k : BankNo} (h : exec i s = .next t) (hk : k ≠ i.bank) :
    t.bank k = s.bank k := by
  rcases exec_next h with ⟨c, -, rfl⟩ | ⟨b, rs, -, rfl⟩
  · rfl
  · exact setBank_bank_other s b hk

/-- The same answer, decided in two states that agree in the responses, the number of banks and one bank. -/
theorem settle_out_bank_congr {s s' t t' : State} {k : BankNo} {r : Except Status (Bank × List Word)}
    (hout : s.out = s'.out) (hlen : s.banks.length = s'.banks.length) (hbank : s.bank k = s'.bank k)
    (h : settle k r s = .next t) (h' : settle k r s' = .next t') : t.out = t'.out ∧ t.bank k = t'.bank k := by
  rcases r with c | ⟨b, rs⟩
  · rw [settle_error] at h h'
    cases h
    cases h'
    exact ⟨congrArg (· ++ [_]) hout, hbank⟩
  · rw [settle_ok] at h h'
    cases h
    cases h'
    refine ⟨congrArg (· ++ [_]) hout, ?_⟩
    rw [answered_bank_set, answered_bank_set, setBank_bank, setBank_bank, hlen, hbank]

/-- Settles O23: only the committed bank changes, and a command other than copy decides its answer from its own bank. -/
theorem banksAreIndependent : Obligations.BanksAreIndependent := by
  refine ⟨fun s t i k h hk => exec_bank_other h hk, fun s s' t t' i hi hcfg hout hlen hbank h h' => ?_⟩
  obtain ⟨r, hr, hr'⟩ := exec_settle_congr i hcfg (sameVisibleAt_of_bank_eq hbank) (by simp [hi])
  exact settle_out_bank_congr hout hlen hbank (hr ▸ h) (hr' ▸ h')

end Sys2Proof.Machine
end

section
/-! SUPPORT. The statements of 20_memory.md: the byte transport, completion of every step, what repeating a command does, and the
bit, byte and window views of one bank. -/

namespace Sys2Proof

/-! ### The byte transport (R43) -/

theorem packetToBytes_cons (w : Word) (p : Packet) : packetToBytes (w :: p) = wordToBytes w ++ packetToBytes p :=
  List.flatMap_cons

theorem wordToBytes_length (w : Word) : (wordToBytes w).length = 4 := rfl

/-- The four bytes of a word, put together again, are the word. -/
theorem wordToBytes_append (w : Word) :
    w.extractLsb' 24 8 ++ w.extractLsb' 16 8 ++ w.extractLsb' 8 8 ++ w.extractLsb' 0 8 = w := by
  rw [BitVec.extractLsb'_append_extractLsb'_eq_extractLsb' (by omega),
    BitVec.extractLsb'_append_extractLsb'_eq_extractLsb' (by omega),
    BitVec.extractLsb'_append_extractLsb'_eq_extractLsb' (by omega), BitVec.extractLsb'_eq_self]

theorem packetOfBytes_wordToBytes_append (w : Word) (bs : List Byte) :
    packetOfBytes (wordToBytes w ++ bs) = (packetOfBytes bs).map (w :: ·) := by
  show (packetOfBytes bs).map _ = _
  rw [wordToBytes_append]

theorem getElem?_wordToBytes (w : Word) {m : Nat} (hm : m < 4) :
    (wordToBytes w)[m]? = some ((w >>> (8 * m)).setWidth 8) := by
  interval_cases m <;> rfl

theorem packetOfBytes_packetToBytes (p : Packet) : packetOfBytes (packetToBytes p) = some p := by
  induction p with
  | nil => rfl
  | cons w p ih => rw [packetToBytes_cons, packetOfBytes_wordToBytes_append, ih, Option.map_some]

theorem packetToBytes_length (p : Packet) : (packetToBytes p).length = 4 * p.length := by
  induction p with
  | nil => rfl
  | cons w p ih =>
    rw [packetToBytes_cons, List.length_append, wordToBytes_length, ih, List.length_cons]
    omega

theorem getElem?_packetToBytes {p : Packet} {k m : Nat} {w : Word} (hk : p[k]? = some w) (hm : m < 4) :
    (packetToBytes p)[4 * k + m]? = some ((w >>> (8 * m)).setWidth 8) := by
  induction p generalizing k with
  | nil => cases hk
  | cons v p ih =>
    rw [packetToBytes_cons]
    cases k with
    | zero =>
      cases hk
      rw [Nat.mul_zero, Nat.zero_add, List.getElem?_append_left (by rwa [wordToBytes_length]), getElem?_wordToBytes w hm]
    | succ k =>
      rw [List.getElem?_append_right (by rw [wordToBytes_length]; omega), wordToBytes_length,
        show 4 * (k + 1) + m - 4 = 4 * k + m by omega]
      exact ih hk

/-- Settles O7: by induction over the packet, one word's four bytes at a time. -/
theorem transportIsLeastSignificantFirst : Obligations.TransportIsLeastSignificantFirst :=
  fun p => ⟨packetOfBytes_packetToBytes p, packetToBytes_length p, fun _ _ _ hk hm => getElem?_packetToBytes hk hm⟩

end Sys2Proof

namespace Sys2Proof.Machine

/-! ### Every step completes (R44, R53) -/

/-- No command blocks, faults or is refused: it raises a status code or it commits, and both end the command. -/
theorem exec_completes (i : Instr) (s : State) : ∃ t, exec i s = .next t := by
  rcases exec_ends i s with ⟨c, h, -⟩ | ⟨b, rs, h, -⟩
  · exact ⟨_, h.trans (raise_eq c s)⟩
  · exact ⟨_, h.trans (complete_eq rs _)⟩

/-- Settles O10: by the inputs a step can take; a packet is refused by the decoder or runs a command, and either is answered. -/
theorem everyStepCompletes : Obligations.EveryStepCompletes := by
  intro s
  obtain hp | ⟨p, q, hp⟩ | ⟨cut, q, hp⟩ := port_cases s
  · exact ⟨s, step_of_idle hp⟩
  · cases hd : decode p with
    | reject e => exact ⟨_, (step_of_reject hp hd).trans (raise_eq _ s)⟩
    | accept i =>
      obtain ⟨t, ht⟩ := exec_completes i s
      exact ⟨t, (step_of_accept hp hd).trans ht⟩
  · exact ⟨s.takeReset, step_of_reset hp⟩

/-! ### The bit view and the byte view (R41) -/

/-- Bit `n` of byte `j` is bit index `8 * j + n` (R41). -/
theorem bitSet_byte (b : Bank) (j : Nat) {n : Nat} (hn : n < 8) : b.bitSet (8 * j + n) = (b.byte j).getLsbD n := by
  rw [Bank.bitSet, show (8 * j + n) / 8 = j by omega, show (8 * j + n) % 8 = n by omega]

/-- In canonical form, two banks with the same `VALID`, `LEN` and bits are equal. -/
theorem bank_ext_bits {b c : Bank} (hb : b.bytes.WF) (hc : c.bytes.WF) (hv : b.valid = c.valid) (hl : b.len = c.len)
    (h : ∀ n, b.bitSet n = c.bitSet n) : b = c := by
  refine bank_ext hb hc hv hl fun j => BitVec.eq_of_getLsbD_eq fun n hn => ?_
  rw [← bitSet_byte b j hn, ← bitSet_byte c j hn, h]

/-! ### The last write stands -/

theorem lastWrite_cons (w : Nat × Bit) (ws : List (Nat × Bit)) (n : Nat) (old : Bool) :
    lastWrite (w :: ws) n old = lastWrite ws n (if n = w.1 then decide (w.2 = 1) else old) := by
  obtain ⟨i, v⟩ := w
  rw [lastWrite, lastWrite, List.reverse_cons, List.lookup_append]
  cases ws.reverse.lookup n with
  | some x => rfl
  | none =>
    by_cases hn : n = i
    · subst hn
      simp [List.lookup, Bool.beq_eq_decide_eq]
    · simp [List.lookup, beq_false_of_ne hn, hn]

/-- What a list of writes gives an index does not change when the list is written again. -/
theorem lastWrite_lastWrite (ws : List (Nat × Bit)) (n : Nat) (old : Bool) :
    lastWrite ws n (lastWrite ws n old) = lastWrite ws n old := by
  unfold lastWrite
  split <;> rfl

/-- Every bit of a bank after a list of bit writes (R124). -/
theorem bitSet_setBitsAt {b : Bank} (h : b.bytes.WF) (ws : List (Nat × Bit)) (n : Nat) :
    (b.setBitsAt ws).bitSet n = lastWrite ws n (b.bitSet n) := by
  induction ws generalizing b with
  | nil => rfl
  | cons w ws ih =>
    rw [lastWrite_cons, ← bitSet_setBitAt h]
    exact ih (wf_setBitAt h w.1 w.2)

theorem setBitsAt_setBitsAt {b : Bank} (h : b.bytes.WF) (ws : List (Nat × Bit)) :
    (b.setBitsAt ws).setBitsAt ws = b.setBitsAt ws := by
  have h' := wf_setBitsAt h ws
  refine bank_ext_bits (wf_setBitsAt h' ws) h' (by simp) (by simp) fun n => ?_
  rw [bitSet_setBitsAt h', bitSet_setBitsAt h, lastWrite_lastWrite]

/-- One bit write is a list of one. -/
theorem setBitAt_setBitAt {b : Bank} (h : b.bytes.WF) (i : Nat) (v : Bit) :
    (b.setBitAt i v).setBitAt i v = b.setBitAt i v := setBitsAt_setBitsAt h [(i, v)]

theorem memWrite_memWrite {b : Bank} (h : b.bytes.WF) (a : Nat) (vals : List Byte) :
    (b.memWrite a vals).memWrite a vals = b.memWrite a vals := by
  have h' : (b.memWrite a vals).bytes.WF := wf_writeAll h a vals
  refine bank_ext (wf_writeAll h' a vals) h' rfl rfl fun j => ?_
  rw [byte_memWrite h', byte_memWrite h]
  split <;> rfl

/-- One byte write is a block of one. -/
theorem setByte_setByte {b : Bank} (h : b.bytes.WF) (a : Nat) (v : Byte) :
    (b.setByte a v).setByte a v = b.setByte a v := memWrite_memWrite h a [v]

/-- The checksum does not depend on the checksum byte (R161). -/
theorem csum_setByte_csumPos {b : Bank} (h : b.bytes.WF) (v : Byte) (lo : Nat) :
    (b.setByte Config.csumPos v).csum lo = b.csum lo := by
  have hbytes : (List.range' lo (Config.csumHi + 1 - lo)).map (fun j => ((b.setByte Config.csumPos v).byte j).toNat) =
      (List.range' lo (Config.csumHi + 1 - lo)).map fun j => (b.byte j).toNat := by
    refine List.map_congr_left fun j hj => ?_
    rw [List.mem_range'_1, Config.csumHi] at hj
    rw [byte_setByte h, if_neg (by rw [Config.csumPos]; omega)]
  rw [Bank.csum, hbytes, Bank.csum]

/-- Fixing a fixed checksum writes the same byte again (R163). -/
theorem setByte_csum_idem {b : Bank} (h : b.bytes.WF) (lo : Nat) :
    (b.setByte Config.csumPos (b.csum lo)).setByte Config.csumPos ((b.setByte Config.csumPos (b.csum lo)).csum lo) =
      b.setByte Config.csumPos (b.csum lo) := by
  rw [csum_setByte_csumPos h, setByte_setByte h]

/-! ### Reads change nothing and repeat (R48) -/

/-- A decided answer appends the same response in every state. -/
theorem settle_response (k : BankNo) (r : Except Status (Bank × List Word)) :
    ∃ p, ∀ s, ∃ t, settle k r s = .next t ∧ t.out = s.out ++ [p] := by
  rcases r with c | ⟨b, rs⟩
  · exact ⟨_, fun s => ⟨_, settle_error k c s, rfl⟩⟩
  · exact ⟨_, fun s => ⟨_, settle_ok k b rs s, rfl⟩⟩

theorem exec_keeps_cfg {i : Instr} {s t : State} (h : exec i s = .next t) : t.cfg = s.cfg := by
  rcases exec_next h with ⟨c, -, rfl⟩ | ⟨b, rs, -, rfl⟩ <;> rfl

theorem exec_reads_banks {i : Instr} {s t : State} (hi : i.reads = true) (h : exec i s = .next t) : t.banks = s.banks := by
  rcases exec_next h with ⟨c, -, rfl⟩ | ⟨b, rs, hb, rfl⟩
  · rfl
  · rw [answered_banks, hb.read hi, setBank_bank_self]

/-- A command in two states with the same parameters and banks returns the same response. -/
theorem exec_response_congr {s s' : State} (i : Instr) (hcfg : s.cfg = s'.cfg) (hbanks : s.banks = s'.banks) :
    ∃ r t t', exec i s = .next t ∧ t.out = s.out ++ [r] ∧ exec i s' = .next t' ∧ t'.out = s'.out ++ [r] := by
  have hbank : ∀ k, SameVisibleAt s s' k := fun k => sameVisibleAt_of_bank_eq (by rw [State.bank, State.bank, hbanks])
  obtain ⟨r, hs, hs'⟩ := exec_settle_congr i hcfg (hbank i.bank) fun _ => hbank
  obtain ⟨p, hp⟩ := settle_response i.bank r
  obtain ⟨t, ht, hout⟩ := hp s
  obtain ⟨t', ht', hout'⟩ := hp s'
  exact ⟨p, t, t', hs.trans ht, hout, hs'.trans ht', hout'⟩

theorem exec_reads_repeats {i : Instr} {s t : State} (hi : i.reads = true) (h : exec i s = .next t) :
    ∃ r u, t.out = s.out ++ [r] ∧ exec i t = .next u ∧ u.out = t.out ++ [r] := by
  obtain ⟨r, t', u, ht, hout, hu, hout'⟩ := exec_response_congr i (exec_keeps_cfg h).symm (exec_reads_banks hi h).symm
  cases h.symm.trans ht
  exact ⟨r, u, hout, hu, hout'⟩

/-! ### The commands behind the common check 7: each one check, then one new bank or its results -/

section OnBank
variable (bk : BankNo) (s : State)

theorem exec_setBit (n : Half) (v : Bit) : exec (.setBit bk n v) s =
    onBank bk (fun b => afterCheck (bitsCheck b.len [n.toNat]) (writeOnly (b.setBitAt n.toNat v))) s := rfl

theorem exec_setBits (idx : List Half) (vals : List Bit) : exec (.setBits bk idx vals) s =
    onBank bk (fun b => afterCheck
      (if idx.length ≠ vals.length then some .bitsMismatch else bitsCheck b.len (idx.map BitVec.toNat))
      (writeOnly (b.setBitsAt ((idx.map BitVec.toNat).zip vals)))) s := by
  simp only [exec, execSetBits, ite_afterCheck]

theorem exec_setByte (n : Half) (v : Byte) : exec (.setByte bk n v) s =
    onBank bk (fun b => afterCheck (rangeCheck b.len n.toNat n.toNat) (writeOnly (b.setByte n.toNat v))) s := rfl

theorem exec_setBytes (first last : Half) (vals : List Byte) : exec (.setBytes bk first last vals) s =
    onBank bk (fun b => afterCheck
      (if (vals.length : Int) ≠ (last.toNat : Int) - (first.toNat : Int) + 1 then some .bytesMismatch
       else rangeCheck b.len first.toNat last.toNat)
      (writeOnly (b.memWrite first.toNat vals))) s := by
  simp only [exec, execSetBytes, ite_afterCheck]

theorem exec_fixChecksum : exec (.fixChecksum bk) s =
    onBank bk (fun b => afterCheck (positionCheck b.len Config.csumPos)
      (writeOnly (b.setByte Config.csumPos (b.csum s.cfg.csumLo)))) s := rfl

theorem exec_rotateLeft : exec (.rotateLeft bk) s =
    onBank bk (fun b => afterCheck (positionCheck b.len Config.ctrPos)
      (writeOnly ((b.unpack (rotatedLeft b.window)).setByte Config.ctrPos (b.byte Config.ctrPos + 1)))) s := rfl

theorem exec_rotateRight : exec (.rotateRight bk) s =
    onBank bk (fun b => afterCheck (positionCheck b.len Config.ctrPos)
      (writeOnly ((b.unpack (rotatedRight b.window)).setByte Config.ctrPos (b.byte Config.ctrPos + 255)))) s := rfl

theorem exec_getBit (n : Half) : exec (.getBit bk n) s =
    onBank bk (fun b => afterCheck (bitsCheck b.len [n.toNat]) (readOnly b [bitWord (b.bitAt n.toNat)])) s := rfl

theorem exec_getByte (n : Half) : exec (.getByte bk n) s =
    onBank bk (fun b => afterCheck (rangeCheck b.len n.toNat n.toNat) (readOnly b [byteWord (b.byte n.toNat)])) s := rfl

theorem exec_getBytes (first last : Half) : exec (.getBytes bk first last) s =
    onBank bk (fun b => afterCheck (rangeCheck b.len first.toNat last.toNat)
      (readOnly b ((b.memRead first.toNat (last.toNat - first.toNat + 1)).map byteWord))) s := rfl

end OnBank

/-! ### Idempotent writers (R48) -/

section Repeat
variable {s t u : State} {k : BankNo}

/-- The same decided answer a second time changes no bank: the status code keeps them, and the bank is set to what it holds. -/
theorem settle_repeat {r : Except Status (Bank × List Word)} (h : settle k r s = .next t) (h' : settle k r t = .next u) :
    u.banks = t.banks := by
  rcases r with c | ⟨b, rs⟩
  · rw [settle_error] at h'
    cases h'
    rfl
  · rw [settle_ok] at h h'
    cases h
    cases h'
    exact List.set_set b

/-- A body that, run again on the bank it answered, answers that bank. -/
def IdempotentBody (body : Bank → Except Status (Bank × List Word)) : Prop :=
  ∀ b b' b'' rs rs', b.bytes.WF → body b = .ok (b', rs) → body b' = .ok (b'', rs') → b'' = b'

theorem idempotentBody_writer {check : Bank → Option Status} {new : Bank → Bank}
    (hnew : ∀ b, b.bytes.WF → new (new b) = new b) :
    IdempotentBody fun b => afterCheck (check b) (writeOnly (new b)) := by
  intro b b' b'' rs rs' hb h h'
  cases (afterCheck_ok h).2
  cases (afterCheck_ok h').2
  exact hnew b hb

/-- The next state of a command on a bank: every bank is kept, or the body's bank is committed. -/
theorem onBank_next {body : Bank → Except Status (Bank × List Word)} (h : onBank k body s = .next t) :
    (∃ p, t = s.answered s.banks p) ∨
    (∃ b rs p, k.toNat < s.cfg.nb ∧ body (s.bank k) = .ok (b, rs) ∧ t = s.answered (s.setBank k b).banks p) := by
  rcases onBank_cases k body s with ⟨c, he, -⟩ | ⟨b, rs, hk, -, hb, he⟩
  · rw [he, raise_eq] at h
    cases h
    exact .inl ⟨_, rfl⟩
  · rw [he, complete_eq] at h
    cases h
    exact .inr ⟨b, rs, _, hk, hb, rfl⟩

/-- A command on a bank whose body is idempotent: a second one finds the bank it committed, and one that failed fails again. -/
theorem onBank_repeat {body : Bank → Except Status (Bank × List Word)} (hbody : IdempotentBody body) (hs : s.WF)
    (h : onBank k body s = .next t) (h' : onBank k body t = .next u) : u.banks = t.banks := by
  rcases onBank_next h with ⟨p, rfl⟩ | ⟨b, rs, p, hk, hb, rfl⟩
  · obtain ⟨r, hr, hr'⟩ := onBank_settle_congr (s := s) (s' := s.answered s.banks p) (k := k) body rfl
      (sameVisibleAt_of_bank_eq rfl)
    exact settle_repeat (hr.symm.trans h) (hr'.symm.trans h')
  · rcases onBank_next h' with ⟨p', rfl⟩ | ⟨b', rs', p', -, hb', rfl⟩
    · rfl
    · rw [answered_bank_set, setBank_bank_same b (hs.2.1 ▸ hk)] at hb'
      cases hbody _ _ _ _ _ (bank_wf hs k).2.1 hb hb'
      exact List.set_set b

/-- A constructing command that makes the same bank again. -/
theorem constructBank_repeat {made : Except Status Bank} (hcfg : s.cfg = t.cfg) (h : constructBank k made s = .next t)
    (h' : constructBank k made t = .next u) : u.banks = t.banks := by
  obtain ⟨r, hr, hr'⟩ := constructBank_settle_congr (k := k) made hcfg
  exact settle_repeat (hr.symm.trans h) (hr'.symm.trans h')

theorem copyMade_ok {src : BankNo} {b : Bank} (h : copyMade s src = .ok b) : b = s.bank src := by
  cases hv : (s.bank src).valid with
  | false =>
    rw [copyMade_unconstructed hv] at h
    cases h
  | true =>
    unfold copyMade at h
    split at h
    · cases h
    · cases h
      rw [← hv]

/-- A copy keeps its source, also where the source is the bank it constructs (R102). -/
theorem copy_keeps_source {bk src : BankNo} (h : exec (.copy bk src) s = .next t) : t.bank src = s.bank src := by
  by_cases hsrc : src = bk
  · subst hsrc
    rw [exec_copy] at h
    rcases constructBank_cases src (copyMade s src) s with ⟨c, he, -⟩ | ⟨b, -, hb, he⟩
    · rw [he, raise_eq] at h
      cases h
      rfl
    · rw [he, complete_eq, copyMade_ok hb, setBank_bank_self] at h
      cases h
      rfl
  · exact exec_bank_other h hsrc

theorem exec_repeat_of_constructs {i : Instr} (hi : i.constructs = true) (h : exec i s = .next t)
    (h' : exec i t = .next u) : u.banks = t.banks := by
  have hcfg := (exec_keeps_cfg h).symm
  cases i with
  | newEmptyBuffer bk => exact constructBank_repeat (made := .ok (Bank.zeros Config.emptyLen)) hcfg h h'
  | construct bk vals =>
    simp only [exec, execConstruct, ← hcfg] at h h'
    exact constructBank_repeat hcfg h h'
  | copy bk src =>
    have hmade : copyMade t src = copyMade s src :=
      copyMade_congr hcfg.symm (sameVisibleAt_of_bank_eq (copy_keeps_source h))
    rw [exec_copy] at h h'
    rw [hmade] at h'
    exact constructBank_repeat hcfg h h'
  | _ => cases hi

/-- The five idempotent writers behind the common check 7, each by what it writes twice. -/
theorem exec_idempotentBody {i : Instr} (hc : i.constructs = false) (hr : i.reads = false)
    (hrot : ∀ bk, i ≠ .rotateLeft bk ∧ i ≠ .rotateRight bk) (lo : Nat) :
    ∃ body, IdempotentBody body ∧ ∀ s : State, s.cfg.csumLo = lo → exec i s = onBank i.bank body s := by
  cases i with
  | setBit bk n v =>
    exact ⟨_, idempotentBody_writer fun b hb => setBitAt_setBitAt hb n.toNat v, fun s _ => exec_setBit bk s n v⟩
  | setBits bk idx vals =>
    exact ⟨_, idempotentBody_writer fun b hb => setBitsAt_setBitsAt hb _, fun s _ => exec_setBits bk s idx vals⟩
  | setByte bk n v =>
    exact ⟨_, idempotentBody_writer fun b hb => setByte_setByte hb n.toNat v, fun s _ => exec_setByte bk s n v⟩
  | setBytes bk first last vals =>
    exact ⟨_, idempotentBody_writer fun b hb => memWrite_memWrite hb first.toNat vals,
      fun s _ => exec_setBytes bk s first last vals⟩
  | fixChecksum bk =>
    exact ⟨_, idempotentBody_writer fun b hb => setByte_csum_idem hb lo, fun s hlo => hlo ▸ exec_fixChecksum bk s⟩
  | rotateLeft bk => exact absurd rfl (hrot bk).1
  | rotateRight bk => exact absurd rfl (hrot bk).2
  | newEmptyBuffer | construct | copy => cases hc
  | getLength | getBit | getBits | getByte | getBytes | validateChecksum => cases hr

/-- Every command but the two rotations, issued a second time, leaves the banks as they are. -/
theorem exec_repeat {i : Instr} (hs : s.WF) (hrot : ∀ bk, i ≠ .rotateLeft bk ∧ i ≠ .rotateRight bk)
    (h : exec i s = .next t) (h' : exec i t = .next u) : u.banks = t.banks := by
  cases hc : i.constructs with
  | true => exact exec_repeat_of_constructs hc h h'
  | false =>
    cases hr : i.reads with
    | true => exact exec_reads_banks hr h'
    | false =>
      obtain ⟨body, hbody, he⟩ := exec_idempotentBody hc hr hrot s.cfg.csumLo
      rw [he s rfl] at h
      rw [he t (by rw [exec_keeps_cfg ((he s rfl).trans h)])] at h'
      exact onBank_repeat hbody hs h h'

end Repeat

/-! ### A writer and a reader on a ready bank -/

theorem ready_bytes_wf {s : State} {bk : BankNo} (hr : Ready s bk) : (s.bank bk).bytes.WF := (bank_wf hr.1 bk).2.1

/-- A writer on a ready bank that passes its check completes, and the bank is ready afterwards with what it wrote. -/
theorem exec_written {i : Instr} {s : State} {bk : BankNo} {check : Bank → Option Status} {new : Bank → Bank}
    (he : exec i s = onBank bk (fun b => afterCheck (check b) (writeOnly (new b))) s) (hi : i.bank = bk) (hr : Ready s bk)
    (hcheck : check (s.bank bk) = none) (hv : (new (s.bank bk)).valid = (s.bank bk).valid) :
    ∃ t, exec i s = .next t ∧ Ready t bk ∧ t.bank bk = new (s.bank bk) := by
  subst hi
  have hc : Commits i s (fun b => b = new (s.bank i.bank)) :=
    commits_of_onBank he hr (by rw [hcheck, afterCheck_none, writeOnly]) rfl
  obtain ⟨t, ht⟩ := exec_completes i s
  have hvalid : ∀ b, b = new (s.bank i.bank) → b.valid = true := by
    rintro b rfl
    exact hv.trans hr.2.2
  obtain ⟨hready, hbank, -⟩ := ready_of_commits hr hvalid hc ht
  exact ⟨t, ht, hready, hbank⟩

/-- A reader on a ready bank that passes its check returns its results. -/
theorem exec_returned {i : Instr} {s : State} {bk : BankNo} {check : Bank → Option Status} {results : Bank → List Word}
    (he : exec i s = onBank bk (fun b => afterCheck (check b) (readOnly b (results b))) s) (hi : i.bank = bk) (hr : Ready s bk)
    (hcheck : check (s.bank bk) = none) : Returns i s (results (s.bank bk)) := by
  subst hi
  exact returns_of_onBank he hr (by rw [hcheck, afterCheck_none, readOnly])

/-! ### Rotations do not repeat (R48) -/

/-- What a rotation leaves in a ready bank that has a counter byte: some window, and a counter that moved (R182, R183). -/
theorem rotation_written {s : State} {bk : BankNo} {i : Instr} (hr : Ready s bk) (hl : 17 ≤ (s.bank bk).len)
    (hi : i = .rotateLeft bk ∨ i = .rotateRight bk) :
    ∃ t, exec i s = .next t ∧ Ready t bk ∧ ∃ (w : Window) (d : Byte), d ≠ 0 ∧
      t.bank bk = ((s.bank bk).unpack w).setByte Config.ctrPos ((s.bank bk).byte Config.ctrPos + d) := by
  have hcheck : positionCheck (s.bank bk).len Config.ctrPos = none := positionCheck_none hl
  rcases hi with rfl | rfl
  · obtain ⟨t, ht, hready, hbank⟩ := exec_written (exec_rotateLeft bk s) rfl hr hcheck (by simp)
    exact ⟨t, ht, hready, _, 1, by decide, hbank⟩
  · obtain ⟨t, ht, hready, hbank⟩ := exec_written (exec_rotateRight bk s) rfl hr hcheck (by simp)
    exact ⟨t, ht, hready, _, 255, by decide, hbank⟩

/-- A rotation changes the counter byte, so it is never without effect. -/
theorem rotation_changes_bank {s t : State} {bk : BankNo} {i : Instr} (hr : Ready s bk) (hl : 17 ≤ (s.bank bk).len)
    (hi : i = .rotateLeft bk ∨ i = .rotateRight bk) (h : exec i s = .next t) :
    Ready t bk ∧ 17 ≤ (t.bank bk).len ∧ t.bank bk ≠ s.bank bk := by
  obtain ⟨t', ht, hready, w, d, hd, hb⟩ := rotation_written hr hl hi
  cases h.symm.trans ht
  refine ⟨hready, by rwa [hb, setByte_len, unpack_len], fun hsame => hd ?_⟩
  have hctr := congrArg (fun b => b.byte Config.ctrPos) (hb.symm.trans hsame)
  simpa [byte_setByte (wf_unpack (ready_bytes_wf hr) w)] using hctr

/-- Settles O26: a reading command commits the bank it read; every other command but a rotation writes what a second one writes
again; and a rotation, the second as the first, moves the counter byte. -/
theorem readsAndRepeats : Obligations.ReadsAndRepeats := by
  refine ⟨fun s t i hi h => ⟨exec_reads_banks hi h, exec_reads_repeats hi h⟩,
    fun s t u i hs hrot h h' => exec_repeat hs hrot h h', fun s t u bk i hr hl hi h h' hbanks => ?_⟩
  obtain ⟨hr', hl', -⟩ := rotation_changes_bank hr hl hi h
  obtain ⟨-, -, hne⟩ := rotation_changes_bank hr' hl' hi h'
  exact hne (by rw [State.bank, State.bank, hbanks])

/-! ### A read after a write (R41, R51) -/

/-- The block just written reads back (R10). -/
theorem memRead_memWrite {b : Bank} (h : b.bytes.WF) (a : Nat) (vals : List Byte) :
    (b.memWrite a vals).memRead a vals.length = vals := by
  refine List.ext_getElem (by simp [Bank.memRead]) fun k hk hk' => ?_
  simp [Bank.memRead, byte_memWrite h, hk']

/-- Settles O40: both commands pass their checks, and the block read is the block written. -/
theorem setBytesThenGetBytes : Obligations.SetBytesThenGetBytes := by
  intro s bk first last vals hr hle hlast hlen
  have hcheck : rangeCheck (s.bank bk).len first.toNat last.toNat = none := rangeCheck_none hle hlast
  obtain ⟨t, ht, hready, hbank⟩ := exec_written (exec_setBytes bk s first last vals) rfl hr
    (by rw [if_neg (by omega), hcheck]) (memWrite_valid ..)
  have hret := exec_returned (exec_getBytes bk t first last) rfl hready (by rw [hbank, memWrite_len, hcheck])
  rw [hbank, show last.toNat - first.toNat + 1 = vals.length by omega, memRead_memWrite (ready_bytes_wf hr)] at hret
  exact ⟨t, ht, hret⟩

/-- Every bit of a byte's result word (R75). -/
theorem getLsbD_byteWord (v : Byte) (m : Nat) : (byteWord v).getLsbD m = v.getLsbD m := by
  rw [byteWord, BitVec.getLsbD_setWidth]
  by_cases hm : m < 32
  · simp [hm]
  · simp [hm, BitVec.getLsbD_of_ge v m (by omega)]

/-- A byte of a bank after a bit of it is written, bit by bit (R41). -/
theorem byte_setBitAt {b : Bank} (h : b.bytes.WF) (j : Nat) {n : Nat} (hn : n < 8) (v : Bit) (m : Nat) :
    ((b.setBitAt (8 * j + n) v).byte j).getLsbD m = if m = n then v == 1 else (b.byte j).getLsbD m := by
  by_cases hm : m < 8
  · rw [← bitSet_byte _ j hm, bitSet_setBitAt h, bitSet_byte b j hm, Bool.beq_eq_decide_eq]
    simp
  · rw [BitVec.getLsbD_of_ge _ _ (by omega), if_neg (by omega), BitVec.getLsbD_of_ge _ _ (by omega)]

/-- Settles O41: the byte written holds bit index `8 * j + n`, and the bit written is bit `n` of byte `j`. -/
theorem bitAndByteViewsAgree : Obligations.BitAndByteViewsAgree := by
  intro s bk j n i hr hj hn hi
  have hwf := ready_bytes_wf hr
  have hbyte : rangeCheck (s.bank bk).len j.toNat j.toNat = none := rangeCheck_none le_rfl hj
  have hbit : bitsCheck (s.bank bk).len [i.toNat] = none := bitsCheck_none (by simp; omega)
  refine ⟨fun v => ?_, fun v => ?_⟩
  · obtain ⟨t, ht, hready, hbank⟩ := exec_written (exec_setByte bk s j v) rfl hr hbyte (setByte_valid ..)
    have hret := exec_returned (exec_getBit bk t i) rfl hready (by rw [hbank, setByte_len, hbit])
    rw [hbank, bitWord_bitAt, hi, bitSet_byte _ _ hn, byte_setByte hwf, if_pos rfl] at hret
    exact ⟨t, ht, hret⟩
  · obtain ⟨t, ht, hready, hbank⟩ := exec_written (exec_setBit bk s i v) rfl hr hbit (setBitAt_valid ..)
    have hret := exec_returned (exec_getByte bk t j) rfl hready (by rw [hbank, setBitAt_len, hbyte])
    refine ⟨t, _, ht, hret, fun m => ?_⟩
    rw [getLsbD_byteWord, hbank, hi, byte_setBitAt hwf _ hn]

/-! ### The window as a number (R42, R181) -/

/-- The lowest `n` digits of a number in base `b`, each at its place, add up to it modulo `b ^ n`. -/
theorem sum_digits_eq_mod (b x n : Nat) : ∑ k ∈ Finset.range n, x / b ^ k % b * b ^ k = x % b ^ n := by
  induction n with
  | zero => simp [Nat.mod_one]
  | succ n ih => rw [Finset.sum_range_succ, ih, Nat.mod_pow_succ, Nat.mul_comm (b ^ n)]

/-- Byte `j` of the window is its digit `15 - j` in base 256 (R181). -/
theorem window_digit (b : Bank) {j : Nat} (hj : j < 16) : b.window.toNat / 256 ^ (15 - j) % 256 = (b.byte j).toNat := by
  have hbyte : b.window.extractLsb' (8 * (15 - j)) 8 = b.byte j := by
    refine BitVec.eq_of_getLsbD_eq fun n hn => ?_
    rw [BitVec.getLsbD_extractLsb', getLsbD_window b hj hn]
    simp [hn]
  rw [← hbyte, BitVec.extractLsb'_toNat, Nat.shiftRight_eq_div_pow, Nat.pow_mul]

theorem window_toNat (b : Bank) : b.window.toNat = b.windowValue := by
  have hlt : b.window.toNat < 256 ^ 16 := b.window.isLt
  calc b.window.toNat
      = ∑ k ∈ Finset.range 16, b.window.toNat / 256 ^ k % 256 * 256 ^ k := by
        rw [sum_digits_eq_mod, Nat.mod_eq_of_lt hlt]
    _ = ∑ j ∈ Finset.range 16, b.window.toNat / 256 ^ (15 - j) % 256 * 256 ^ (15 - j) :=
        (Finset.sum_range_reflect (fun k => b.window.toNat / 256 ^ k % 256 * 256 ^ k) 16).symm
    _ = b.windowValue := Finset.sum_congr rfl fun j hj => by rw [window_digit b (Finset.mem_range.mp hj)]

/-- Settles O46: the window's digits in base 256 are the bytes, and its bits are the bits of the bytes. -/
theorem windowIsBigEndian : Obligations.WindowIsBigEndian := by
  refine fun b => ⟨window_toNat b, fun j n hj hn => ?_⟩
  rw [← window_toNat, BitVec.testBit_toNat, getLsbD_window b hj hn, bitSet_byte b j hn]

end Sys2Proof.Machine
end

section
/-! SUPPORT. The statements of 30_encoding.md on packets: the decoder and the encoder against each other (R60 to R65), and the words of
the opcode map (R67). -/

namespace Sys2Proof

/-! ### The declared length (R65, R66) -/

/-- The decoder's length check is the length column of R65: where the packet is too short to hold the field that declares its length, it
is shorter than any length that the field could declare. -/
theorem declaredLength_eq_iff (o : Opcode) (h : Word) (rest : Packet) :
    o.declaredLength (h :: rest) = some (rest.length + 1) ↔ rest.length + 1 = o.wordsOf h rest := by
  rw [eq_comm (a := rest.length + 1)]
  cases rest with
  | nil => cases o <;> simp [Opcode.declaredLength, Opcode.format, Opcode.wordsOf, Opcode.packetWords] <;> omega
  | cons w rest =>
    cases o <;> simp [Opcode.declaredLength, Opcode.format, Opcode.wordsOf, Opcode.packetWords, Opcode.listWords]; omega

/-! ### Decoding what the encoder writes -/

/-- A packet whose header is written for a row of the opcode map passes the opcode check; it carries the command that its fields give
where it passes the other checks. -/
theorem decode_headerWord {o : Opcode} {bk : BankNo} {aux : BitVec 4} {a : Half} {rest : Packet} {i : Instr}
    (hl : o.declaredLength (headerWord o bk aux a :: rest) = some (rest.length + 1))
    (hc : o.headerClear (headerWord o bk aux a) = true) (hr : o.restClear (headerWord o bk aux a) rest = true)
    (hi : o.assemble (headerWord o bk aux a) rest = i) : decode (headerWord o bk aux a :: rest) = .accept i :=
  hi ▸ decode_accept (by simp) hl (by simp [hc, hr])

theorem decode_encode {i : Instr} (hi : i.wellFormed = true) : decode (encode i) = .accept i := by
  cases i with
  | newEmptyBuffer bk | copy bk src | getLength bk | getBit bk n | setBit bk n v | getByte bk n | validateChecksum bk
  | fixChecksum bk | rotateLeft bk | rotateRight bk =>
    exact decode_headerWord rfl (by simp [Opcode.headerClear]) rfl (by simp [Opcode.assemble])
  | setByte bk n v | getBytes bk first last =>
    exact decode_headerWord rfl (by simp [Opcode.headerClear]) (by simp [Opcode.restClear]) (by simp [Opcode.assemble])
  | construct bk l | getBits bk l =>
    have hn : l.length < 65536 := by simpa [Instr.wellFormed, fitsCount] using hi
    refine decode_headerWord ((declaredLength_eq_iff ..).mpr ?_) (by simp [Opcode.headerClear]) (by simp [Opcode.restClear])
      (by simp [Opcode.assemble, Function.comp_def])
    simp [Opcode.wordsOf, Opcode.packetWords, toNat_countField hn, Nat.add_comm]
  | setBytes bk first last vals =>
    have hn : vals.length < 65536 := by simpa [Instr.wellFormed, fitsCount] using hi
    refine decode_headerWord ((declaredLength_eq_iff ..).mpr ?_) (by simp [Opcode.headerClear]) (by simp [Opcode.restClear])
      (by simp [Opcode.assemble, Function.comp_def])
    simp [Opcode.wordsOf, Opcode.packetWords, toNat_countField hn]
    omega
  | setBits bk idx vals =>
    obtain ⟨hidx, hvals⟩ : idx.length < 65536 ∧ vals.length < 65536 := by simpa [Instr.wellFormed, fitsCount] using hi
    have htake : (idx.map indexWord ++ vals.map bitWord).take idx.length = idx.map indexWord := List.take_left' (by simp)
    have hdrop : (idx.map indexWord ++ vals.map bitWord).drop idx.length = vals.map bitWord := List.drop_left' (by simp)
    refine decode_headerWord ((declaredLength_eq_iff ..).mpr ?_) (by simp [Opcode.headerClear])
      (by simp [Opcode.restClear, toNat_countField hidx, htake, hdrop])
      (by simp [Opcode.assemble, toNat_countField hidx, htake, hdrop, Function.comp_def])
    simp [Opcode.wordsOf, Opcode.packetWords, toNat_countField hidx, toNat_countField hvals]
    omega

/-- Settles O1: by the rows of the opcode map, a header alone, one payload list, two payload lists; the packet passes the decoder's
checks and its fields are the operands. -/
theorem decodeOfEncode : Obligations.DecodeOfEncode := fun _ hi => decode_encode hi

/-! ### Encoding what the decoder accepts -/

/-- A header whose fields are these is the header word of these fields (R61). -/
theorem headerWord_eq_of_fields {o : Opcode} {h : Word} {aux : BitVec 4} {a : Half} (ho : o.code = fieldOp h)
    (haux : fieldAux h = aux) (ha : fieldA h = a) : headerWord o (fieldBk h) aux a = h := by
  rw [← haux, ← ha, headerWord_fields h ho]

/-- An operand word whose fields are these is the operand word of these fields (R62). -/
theorem operandWord_eq_of_fields {w : Word} {wb wc : Half} (hb : fieldWb w = wb) (hc : fieldWc w = wc) :
    operandWord wb wc = w := by
  rw [← hb, ← hc, operandWord_fields]

/-- Payload words that each are the word of their own field are the words of their fields. -/
theorem map_map_of_all {α : Type} {f : Word → α} {g : α → Word} {clear : Word → Bool} {ws : Packet}
    (hfg : ∀ w, clear w = true → g (f w) = w) (h : ws.all clear = true) : (ws.map f).map g = ws := by
  rw [List.map_map]
  exact (List.map_congr_left fun w hw => hfg w (List.all_eq_true.mp h w hw)).trans (List.map_id ws)

/-- A list as long as a count field says fits a count field (R7). -/
theorem fitsCount_of_length {α : Type} {l : List α} {n : Half} (h : l.length = n.toNat) : fitsCount l = true := by
  simpa [fitsCount, h] using n.isLt

/-- `AUX` of a setBit header with clear reserved bits is its value (R61). -/
theorem setBit_aux_eq {aux : BitVec 4} (h : (aux.extractLsb' 1 3 == 0) = true) : (aux.extractLsb' 0 1).setWidth 4 = aux := by
  revert aux; decide

/-- A packet whose header counts its payload words is the packet of the list that those words hold. -/
theorem headerWord_list_eq {α : Type} {f : Word → α} {g : α → Word} {clear : Word → Bool} {o : Opcode} {h : Word}
    {rest : Packet} (ho : o.code = fieldOp h) (hl : rest.length + 1 = 1 + (fieldA h).toNat) (hc : (fieldAux h == 0) = true)
    (hr : rest.all clear = true) (hfg : ∀ w, clear w = true → g (f w) = w) :
    fitsCount (rest.map f) = true ∧
      headerWord o (fieldBk h) 0 (countField (rest.map f)) :: (rest.map f).map g = h :: rest := by
  have hn : (rest.map f).length = (fieldA h).toNat := by
    rw [List.length_map]
    omega
  refine ⟨fitsCount_of_length hn, ?_⟩
  rw [headerWord_eq_of_fields ho (beq_iff_eq.mp hc) (countField_of_length hn).symm, map_map_of_all hfg hr]

/-- A packet with an operand word behind its header holds at least that word. -/
theorem exists_operandWord {rest : Packet} {n : Nat} (hl : rest.length + 1 = 2 + n) :
    ∃ w ws, rest = w :: ws ∧ ws.length = n := by
  obtain ⟨w, ws, rfl⟩ := List.exists_cons_of_length_pos (l := rest) (by omega)
  rw [List.length_cons] at hl
  exact ⟨w, ws, rfl, by omega⟩

theorem encode_assemble_setBytes {h : Word} {rest : Packet} (ho : Opcode.setBytes.code = fieldOp h)
    (hl : rest.length + 1 = 2 + (fieldWb (rest.headD 0)).toNat) (hc : (fieldAux h == 0) = true)
    (hr : (rest.drop 1).all byteWordClear = true) :
    (Opcode.setBytes.assemble h rest).wellFormed = true ∧ encode (Opcode.setBytes.assemble h rest) = h :: rest := by
  obtain ⟨w, ws, rfl, hws⟩ := exists_operandWord hl
  have hn : (ws.map byteField).length = (fieldWb w).toNat := by rw [List.length_map, hws, List.headD_cons]
  refine ⟨fitsCount_of_length hn, ?_⟩
  rw [List.drop_one, List.tail_cons] at hr
  rw [Opcode.assemble, encode, List.headD_cons, List.drop_one, List.tail_cons,
    headerWord_eq_of_fields ho (beq_iff_eq.mp hc) rfl, countField_of_length hn, operandWord_fields,
    map_map_of_all (fun _ => byteWord_byteField) hr]

theorem encode_assemble_setBits {h : Word} {rest : Packet} (ho : Opcode.setBits.code = fieldOp h)
    (hl : rest.length + 1 = 2 + (fieldA h).toNat + (fieldWb (rest.headD 0)).toNat) (hc : (fieldAux h == 0) = true)
    (hr : Opcode.setBits.restClear h rest = true) :
    (Opcode.setBits.assemble h rest).wellFormed = true ∧ encode (Opcode.setBits.assemble h rest) = h :: rest := by
  obtain ⟨w, ws, rfl, hws⟩ := exists_operandWord (hl.trans (Nat.add_assoc ..))
  rw [List.headD_cons] at hws
  have hidx : ((ws.take (fieldA h).toNat).map indexField).length = (fieldA h).toNat := by simp [hws]
  have hvals : ((ws.drop (fieldA h).toNat).map bitField).length = (fieldWb w).toNat := by simp [hws]
  obtain ⟨⟨hw, hi⟩, hv⟩ : (fieldWc w = 0 ∧ (ws.take (fieldA h).toNat).all indexWordClear = true) ∧
      (ws.drop (fieldA h).toNat).all bitWordClear = true := by simpa [Opcode.restClear] using hr
  refine ⟨Bool.and_eq_true_iff.mpr ⟨fitsCount_of_length hidx, fitsCount_of_length hvals⟩, ?_⟩
  rw [Opcode.assemble, encode, List.drop_one, List.tail_cons,
    headerWord_eq_of_fields ho (beq_iff_eq.mp hc) (countField_of_length hidx).symm,
    operandWord_eq_of_fields (countField_of_length hvals).symm hw, map_map_of_all (fun _ => indexWord_indexField) hi,
    map_map_of_all (fun _ => bitWord_bitField) hv, List.take_append_drop]

/-- A packet that passes the common checks 2 to 4 of R77 is the packet of the command that its fields give, and the lists of that command
are as short as the count fields that declared them. -/
theorem encode_assemble {o : Opcode} {h : Word} {rest : Packet} (ho : o.code = fieldOp h)
    (hl : rest.length + 1 = o.wordsOf h rest) (hc : o.headerClear h = true) (hr : o.restClear h rest = true) :
    (o.assemble h rest).wellFormed = true ∧ encode (o.assemble h rest) = h :: rest := by
  cases o with
  | newEmptyBuffer | getLength | validateChecksum | fixChecksum | rotateLeft | rotateRight =>
    obtain rfl : rest = [] := by simpa [Opcode.wordsOf, Opcode.packetWords] using hl
    obtain ⟨haux, ha⟩ : fieldAux h = 0 ∧ fieldA h = 0 := by simpa [Opcode.headerClear] using hc
    exact ⟨rfl, congrArg (· :: []) (headerWord_eq_of_fields ho haux ha)⟩
  | getBit | getByte =>
    obtain rfl : rest = [] := by simpa [Opcode.wordsOf, Opcode.packetWords] using hl
    exact ⟨rfl, congrArg (· :: []) (headerWord_eq_of_fields ho (beq_iff_eq.mp hc) rfl)⟩
  | copy =>
    obtain rfl : rest = [] := by simpa [Opcode.wordsOf, Opcode.packetWords] using hl
    exact ⟨rfl, congrArg (· :: []) (headerWord_eq_of_fields ho rfl (beq_iff_eq.mp hc))⟩
  | setBit =>
    obtain rfl : rest = [] := by simpa [Opcode.wordsOf, Opcode.packetWords] using hl
    exact ⟨rfl, congrArg (· :: []) (headerWord_eq_of_fields ho (setBit_aux_eq hc).symm rfl)⟩
  | setByte =>
    obtain ⟨w, ws, rfl, hws⟩ := exists_operandWord (n := 0) hl
    obtain rfl := List.length_eq_zero_iff.mp hws
    have hw : byteWordClear w = true := by simpa [Opcode.restClear] using hr
    exact ⟨rfl, congrArg₂ (fun v x => [v, x]) (headerWord_eq_of_fields ho (beq_iff_eq.mp hc) rfl)
      ((operandWord_byte _).trans (byteWord_byteField hw))⟩
  | getBytes =>
    obtain ⟨w, ws, rfl, hws⟩ := exists_operandWord (n := 0) hl
    obtain rfl := List.length_eq_zero_iff.mp hws
    have hw : fieldWb w = 0 := by simpa [Opcode.restClear] using hr
    exact ⟨rfl, congrArg₂ (fun v x => [v, x]) (headerWord_eq_of_fields ho (beq_iff_eq.mp hc) rfl)
      (operandWord_eq_of_fields hw rfl)⟩
  | construct => exact headerWord_list_eq ho hl hc hr fun _ => byteWord_byteField
  | getBits => exact headerWord_list_eq ho hl hc hr fun _ => indexWord_indexField
  | setBytes => exact encode_assemble_setBytes ho hl hc hr
  | setBits => exact encode_assemble_setBits ho hl hc hr

/-- Settles O2: the decoder accepts after its checks only, and each check gives one part of the packet back. -/
theorem encodeOfDecode : Obligations.EncodeOfDecode := by
  intro p i hd
  obtain ⟨h, rest, o, rfl, ho, hl, hc, hr, rfl⟩ := decode_eq_accept hd
  exact encode_assemble (code_of_opcodeOf ho) ((declaredLength_eq_iff o h rest).mp hl) hc hr

end Sys2Proof
end

section
/-! SUPPORT. The statements of 30_encoding.md on the common checks (R66 to R69, R77): reserved bits as the masks of the opcode table, and
what the block answers to each packet that fails a check. -/

namespace Sys2Proof

/-! ### The opcode map (R67, R68) -/

/-- Settles O3: the decoder run on the seven packets. -/
theorem specWordsDecode : Obligations.SpecWordsDecode := by
  unfold Obligations.SpecWordsDecode
  decide

theorem fieldOp_toNat (h : Word) : (fieldOp h).toNat = h.toNat / 2 ^ 24 := by
  rw [fieldOp, BitVec.extractLsb'_toNat, Nat.shiftRight_eq_div_pow]
  omega

theorem opcodeOf_eq_none_iff (c : BitVec 8) :
    opcodeOf c = none ↔ ∀ o ∈ opcodeMap, o.code.toNat ≠ c.toNat := by
  simp only [opcodeOf, List.find?_eq_none, beq_iff_eq, ← BitVec.toNat_inj, ne_eq]

/-! ### Reserved bits as masks (R69) -/

/-- A mask of two fields has no bit in common with a word exactly when neither field has. -/
theorem and_or_eq_zero_iff (w m n : Word) : w &&& (m ||| n) = 0 ↔ w &&& m = 0 ∧ w &&& n = 0 := by
  rw [BitVec.and_or_distrib_left]
  exact BitVec.or_eq_zero_iff

theorem and_auxMask_eq_zero_iff (w : Word) : w &&& 0x000F0000 = 0 ↔ fieldAux w = 0 :=
  and_mask_eq_zero w (s := 16) (n := 4) (by decide)

theorem and_lowMask_eq_zero_iff (w : Word) : w &&& 0x0000FFFF = 0 ↔ w.extractLsb' 0 16 = 0 :=
  and_mask_eq_zero w (s := 0) (n := 16) (by decide)

theorem and_auxLowMask_eq_zero_iff (w : Word) : w &&& 0x000FFFFF = 0 ↔ fieldAux w = 0 ∧ fieldA w = 0 := by
  rw [show (0x000FFFFF : Word) = 0x000F0000 ||| 0x0000FFFF from rfl, and_or_eq_zero_iff, and_auxMask_eq_zero_iff,
    and_lowMask_eq_zero_iff, fieldA]

theorem and_setBitMask_eq_zero_iff (w : Word) : w &&& 0x000E0000 = 0 ↔ (fieldAux w).extractLsb' 1 3 = 0 := by
  have h : (fieldAux w).extractLsb' 1 3 = w.extractLsb' 17 3 := by
    rw [fieldAux]
    apply BitVec.eq_of_toNat_eq
    simp only [BitVec.extractLsb'_toNat, Nat.shiftRight_eq_div_pow]
    omega
  rw [h]
  exact and_mask_eq_zero w (s := 17) (n := 3) (by decide)

theorem indexWordClear_iff (w : Word) : indexWordClear w = true ↔ w &&& 0xFFFF0000 = 0 :=
  beq_iff_eq.trans (and_mask_eq_zero w (s := 16) (n := 16) (by decide)).symm

theorem bitWordClear_iff (w : Word) : bitWordClear w = true ↔ w &&& 0xFFFFFFFE = 0 :=
  beq_iff_eq.trans (and_mask_eq_zero w (s := 1) (n := 31) (by decide)).symm

theorem byteWordClear_iff (w : Word) : byteWordClear w = true ↔ w &&& 0xFFFFFF00 = 0 :=
  beq_iff_eq.trans (and_mask_eq_zero w (s := 8) (n := 24) (by decide)).symm

/-- The decoder's check of the header is the mask of the opcode table (R61, R65). -/
theorem headerClear_iff (o : Opcode) (h : Word) : o.headerClear h = true ↔ h &&& o.reservedHeader = 0 := by
  cases o with
  | newEmptyBuffer | getLength | validateChecksum | fixChecksum | rotateLeft | rotateRight =>
    exact Iff.trans (by simp [Opcode.headerClear]) (and_auxLowMask_eq_zero_iff h).symm
  | construct | getBit | getBits | setBits | getByte | setByte | getBytes | setBytes =>
    exact beq_iff_eq.trans (and_auxMask_eq_zero_iff h).symm
  | copy => exact beq_iff_eq.trans (and_lowMask_eq_zero_iff h).symm
  | setBit => exact beq_iff_eq.trans (and_setBitMask_eq_zero_iff h).symm

/-- A check of every word of a list, as a mask on the word at every position. -/
theorem all_clear_iff {clear : Word → Bool} {m : Word} (hm : ∀ w, clear w = true ↔ w &&& m = 0) (ws : Packet) :
    ws.all clear = true ↔ ∀ (k : Nat) (w : Word), ws[k]? = some w → w &&& m = 0 := by
  rw [List.all_eq_true]
  constructor
  · exact fun h k w hk => (hm w).mp (h w (List.mem_of_getElem? hk))
  · intro h w hw
    obtain ⟨k, hk⟩ := List.mem_iff_getElem?.mp hw
    exact (hm w).mpr (h k w hk)

/-- What holds of every word of a list, of the first one and of those behind it. -/
theorem forall_getElem?_cons {P : Nat → Word → Prop} (v : Word) (ws : Packet) :
    (∀ (k : Nat) (w : Word), (v :: ws)[k]? = some w → P k w) ↔
      P 0 v ∧ ∀ (k : Nat) (w : Word), ws[k]? = some w → P (k + 1) w := by
  constructor
  · exact fun h => ⟨h 0 v rfl, fun k w hk => h (k + 1) w hk⟩
  · rintro ⟨h0, h⟩ k w hk
    cases k with
    | zero => cases hk; exact h0
    | succ k => exact h k w hk

/-- A check of the first `n` words of a list and another of those behind them, as one mask for every position. -/
theorem all_take_drop_iff {clear clear' : Word → Bool} {m m' : Word} (hm : ∀ w, clear w = true ↔ w &&& m = 0)
    (hm' : ∀ w, clear' w = true ↔ w &&& m' = 0) (n : Nat) (ws : Packet) :
    ((ws.take n).all clear = true ∧ (ws.drop n).all clear' = true) ↔
      ∀ (k : Nat) (w : Word), ws[k]? = some w → w &&& (if k < n then m else m') = 0 := by
  rw [all_clear_iff hm, all_clear_iff hm']
  constructor
  · rintro ⟨ht, hd⟩ k w hk
    by_cases hn : k < n
    · rw [if_pos hn]
      exact ht k w (by rw [List.getElem?_take, if_pos hn, hk])
    · rw [if_neg hn]
      exact hd (k - n) w (by rw [List.getElem?_drop, Nat.add_sub_cancel' (Nat.not_lt.mp hn), hk])
  · refine fun h => ⟨fun k w hk => ?_, fun k w hk => ?_⟩
    · rw [List.getElem?_take] at hk
      split at hk
      · next hn => simpa [hn] using h k w hk
      · cases hk
    · rw [List.getElem?_drop] at hk
      simpa using h (n + k) w hk

/-- Where every word behind the header has the same reserved bits, the check is one mask on each. -/
theorem restClear_iff_of_mask {o : Opcode} {h : Word} {rest : Packet} {clear : Word → Bool} {m : Word}
    (hmask : ∀ k, o.reservedBits (fieldA h).toNat (k + 1) = m) (hrest : o.restClear h rest = rest.all clear)
    (hm : ∀ w, clear w = true ↔ w &&& m = 0) : o.restClear h rest = true ↔
      ∀ (k : Nat) (w : Word), rest[k]? = some w → w &&& o.reservedBits (fieldA h).toNat (k + 1) = 0 := by
  simp only [hrest, hmask, all_clear_iff hm]

theorem reservedBits_zero (o : Opcode) (a : Nat) : o.reservedBits a 0 = o.reservedHeader := by cases o <;> rfl

theorem reservedBits_setBits (a k : Nat) :
    Opcode.setBits.reservedBits a (k + 2) = if k < a then 0xFFFF0000 else 0xFFFFFFFE := by
  simp [Opcode.reservedBits, Nat.add_comm 2]

/-- The decoder's check of the words behind the header is the masks of R62 to R65. -/
theorem restClear_iff (o : Opcode) (h : Word) (rest : Packet) : o.restClear h rest = true ↔
    ∀ (k : Nat) (w : Word), rest[k]? = some w → w &&& o.reservedBits (fieldA h).toNat (k + 1) = 0 := by
  cases o with
  | newEmptyBuffer | copy | getLength | getBit | setBit | getByte | validateChecksum | fixChecksum | rotateLeft
  | rotateRight => simp [Opcode.restClear, Opcode.reservedBits]
  | construct | setByte => exact restClear_iff_of_mask (by simp [Opcode.reservedBits]) rfl byteWordClear_iff
  | getBits => exact restClear_iff_of_mask (by simp [Opcode.reservedBits]) rfl indexWordClear_iff
  | getBytes => exact restClear_iff_of_mask (by simp [Opcode.reservedBits]) rfl indexWordClear_iff
  | setBytes =>
    cases rest with
    | nil => simp [Opcode.restClear]
    | cons v ws =>
      rw [forall_getElem?_cons]
      simpa [Opcode.restClear, Opcode.reservedBits] using all_clear_iff byteWordClear_iff ws
  | setBits =>
    cases rest with
    | nil => simp [Opcode.restClear]
    | cons v ws =>
      have hv : (fieldWc v == 0) = true ↔ v &&& Opcode.setBits.reservedBits (fieldA h).toNat 1 = 0 :=
        beq_iff_eq.trans (and_lowMask_eq_zero_iff v).symm
      rw [forall_getElem?_cons, Nat.zero_add, ← hv]
      simp only [reservedBits_setBits]
      rw [← all_take_drop_iff indexWordClear_iff bitWordClear_iff, ← and_assoc]
      simp [Opcode.restClear]

/-- A reserved bit is one exactly when one of the decoder's two checks fails (R69). -/
theorem reservedBitSet_iff (o : Opcode) (h : Word) (rest : Packet) :
    o.ReservedBitSet h rest ↔ (o.headerClear h && o.restClear h rest) = false := by
  have hclear : (o.headerClear h && o.restClear h rest) = true ↔
      ∀ (k : Nat) (w : Word), (h :: rest)[k]? = some w → w &&& o.reservedBits (fieldA h).toNat k = 0 := by
    rw [Bool.and_eq_true, headerClear_iff, restClear_iff, forall_getElem?_cons, reservedBits_zero]
  rw [← Bool.not_eq_true, hclear, Opcode.ReservedBitSet]
  push Not
  rfl

end Sys2Proof

namespace Sys2Proof.Machine

/-! ### The common checks 1 to 4 (R66, R68, R69, R77) -/

section Checks
variable {s : State} {p : Packet} {q : List Input}

/-- A packet that the decoder rejects is answered with the status code of that name, and nothing changes (R71). -/
theorem stepFails_of_reject {e : Reject} (hp : s.port = .packet p :: q) (hd : decode p = .reject e) :
    StepFails s (rejectStatus e).code.toNat := by
  rw [StepFails, step_of_reject hp hd, raise_eq, BitVec.ofNat_toNat]

/-- A packet whose command raises a status code is answered with it, and nothing changes (R11). -/
theorem stepFails_of_raise {i : Instr} {c : Status} (hp : s.port = .packet p :: q) (hd : decode p = .accept i)
    (h : exec i s = raise c s) : StepFails s c.code.toNat := by
  rw [StepFails, step_of_accept hp hd, h, raise_eq, BitVec.ofNat_toNat]

end Checks

/-- Settles O4: the sixteen values are those of the opcode map, and the decoder rejects a header of any other before it looks further. -/
theorem unassignedOpcodesAreIllegal : Obligations.UnassignedOpcodesAreIllegal := by
  intro s h rest q hp hop
  have hnone : opcodeOf (fieldOp h) = none := by
    rw [opcodeOf_eq_none_iff, fieldOp_toNat]
    intro o _ ho
    rw [← ho] at hop
    cases o <;> exact hop (by decide)
  exact ⟨decode_illegal hnone, stepFails_of_reject hp (decode_illegal hnone)⟩

section Decoded
variable {h : Word} {rest : Packet} {o : Opcode}

/-- The common check 3 of R77, against the length column of R65. -/
theorem decode_of_wrong_length (ho : opcodeOf (fieldOp h) = some o) (hl : rest.length + 1 ≠ o.wordsOf h rest) :
    decode (h :: rest) = .reject .malformedLength :=
  decode_malformed ho (mt (declaredLength_eq_iff o h rest).mp hl)

/-- The common check 4 of R77, against the masks of R61 to R65. -/
theorem decode_of_reserved (ho : opcodeOf (fieldOp h) = some o) (hl : rest.length + 1 = o.wordsOf h rest)
    (hr : o.ReservedBitSet h rest) : decode (h :: rest) = .reject .reservedNonzero :=
  decode_reserved ho ((declaredLength_eq_iff o h rest).mpr hl) ((reservedBitSet_iff o h rest).mp hr)

/-- A packet that passes the common checks 1 to 4 of R77. -/
theorem decode_of_clear (ho : opcodeOf (fieldOp h) = some o) (hl : rest.length + 1 = o.wordsOf h rest)
    (hr : ¬ o.ReservedBitSet h rest) : decode (h :: rest) = .accept (o.assemble h rest) :=
  decode_accept ho ((declaredLength_eq_iff o h rest).mpr hl)
    (Bool.not_eq_false _ ▸ mt (reservedBitSet_iff o h rest).mpr hr)

end Decoded

/-- Settles O5: a packet of the declared length is accepted or has a reserved bit set, so it is never malformed. -/
theorem declaredLengthIsEnforced : Obligations.DeclaredLengthIsEnforced := by
  refine ⟨fun s q hp => stepFails_of_reject hp decode_nil, fun h rest o ho => ⟨⟨fun hd hl => ?_, decode_of_wrong_length ho⟩,
    fun s q hp hl => stepFails_of_reject hp (decode_of_wrong_length ho hl)⟩⟩
  by_cases hr : o.ReservedBitSet h rest
  · rw [decode_of_reserved ho hl hr] at hd
    cases hd
  · rw [decode_of_clear ho hl hr] at hd
    cases hd

/-- Settles O6: without a reserved bit set such a packet is accepted. -/
theorem reservedBitsAreRefused : Obligations.ReservedBitsAreRefused := by
  refine fun h rest o ho hl => ⟨⟨fun hd => ?_, decode_of_reserved ho hl⟩,
    fun s q hp hr => stepFails_of_reject hp (decode_of_reserved ho hl hr)⟩
  by_contra hr
  rw [decode_of_clear ho hl hr] at hd
  cases hd

/-! ### Commands by the operation they share -/

section Commands
variable (bk : BankNo) (s : State)

theorem exec_newEmptyBuffer : exec (.newEmptyBuffer bk) s = constructBank bk (.ok (Bank.zeros Config.emptyLen)) s := rfl

theorem exec_construct (vals : List Byte) : exec (.construct bk vals) s =
    constructBank bk (if s.cfg.cap < vals.length then .error .capacity else .ok (Bank.ofBytes vals)) s := rfl

theorem exec_getLength : exec (.getLength bk) s = onBank bk (fun b => readOnly b [BitVec.ofNat 32 b.len]) s := rfl

theorem exec_getBits (idx : List Half) : exec (.getBits bk idx) s =
    onBank bk (fun b => afterCheck (bitsCheck b.len (idx.map BitVec.toNat))
      (readOnly b (idx.map fun n => bitWord (b.bitAt n.toNat)))) s := rfl

theorem exec_validateChecksum : exec (.validateChecksum bk) s =
    onBank bk (fun b => afterCheck (positionCheck b.len Config.csumPos)
      (if b.byte Config.csumPos ≠ b.csum s.cfg.csumLo then .error .checksum else readOnly b [])) s := rfl

end Commands

/-! ### The common checks 5 to 8 (R77) -/

/-- The common check 5 of R77, for every command. -/
theorem exec_badBank {i : Instr} {s : State} (h : s.cfg.nb ≤ i.bank.toNat) : exec i s = raise .badBank s := by
  cases hi : i.constructs with
  | false =>
    obtain ⟨body, hbody⟩ := exec_onBank hi
    rw [hbody, onBank_badBank h]
  | true =>
    obtain ⟨made, hmade⟩ := exec_constructBank hi
    rw [hmade, constructBank_badBank h]

/-- The common check 6 of R77: the source of a copy is no bank of the block, or an unconstructed one. -/
theorem exec_copy_noSource {bk src : BankNo} {s : State} (hb : bk.toNat < s.cfg.nb)
    (hs : s.cfg.nb ≤ src.toNat ∨ (s.bank src).valid = false) : exec (.copy bk src) s = raise .copySource s := by
  have hmade : copyMade s src = .error .copySource := if_pos (hs.imp_left fun h => by simp [State.hasBank, h])
  rw [exec_copy, hmade, constructBank_error hb]

/-- The common check 8 of R77. -/
theorem exec_construct_capacity {bk : BankNo} {vals : List Byte} {s : State} (hb : bk.toNat < s.cfg.nb)
    (hn : s.cfg.cap < vals.length) : exec (.construct bk vals) s = raise .capacity s := by
  rw [exec_construct, if_pos hn, constructBank_error hb]

theorem assemble_bank (o : Opcode) (h : Word) (rest : Packet) : (o.assemble h rest).bank = fieldBk h := by cases o <;> rfl

theorem assemble_constructs {o : Opcode} (ho : o ∉ [.newEmptyBuffer, .construct, .copy]) (h : Word) (rest : Packet) :
    (o.assemble h rest).constructs = false := by
  cases o with
  | newEmptyBuffer | construct | copy => simp at ho
  | _ => rfl

/-- Settles O14: the decoder makes the checks 1 to 4, and each command the checks 5 to 8 that apply to it, before anything else. -/
theorem commonChecksInOrder : Obligations.CommonChecksInOrder := by
  intro s p q hp
  refine ⟨?_, ?_⟩
  · rintro rfl
    exact stepFails_of_reject hp decode_nil
  rintro h rest rfl
  refine ⟨fun ho => stepFails_of_reject hp (decode_illegal ho), fun o ho =>
    ⟨fun hl => stepFails_of_reject hp (decode_of_wrong_length ho hl), fun hl =>
      ⟨fun hr => stepFails_of_reject hp (decode_of_reserved ho hl hr), fun hr => ?_⟩⟩⟩
  have hd := decode_of_clear ho hl hr
  refine ⟨fun hb => ?_, fun hb => ⟨?_, fun hc hv => ?_, ?_⟩⟩
  · exact stepFails_of_raise hp hd (exec_badBank (by rwa [assemble_bank]))
  · rintro rfl hs
    exact stepFails_of_raise hp hd (exec_copy_noSource hb hs)
  · refine stepFails_of_raise hp hd (exec_notConstructed (assemble_constructs hc h rest) ?_ ?_) <;> rwa [assemble_bank]
  · rintro rfl hn
    have hlen : rest.length + 1 = 1 + (fieldA h).toNat := hl
    exact stepFails_of_raise hp hd (exec_construct_capacity hb (by rw [List.length_map]; omega))

end Sys2Proof.Machine
end

section
/-! SUPPORT. The statements of 30_encoding.md on responses (R71, R75, R76): which codes a response carries, and which result words. -/

namespace Sys2Proof.Machine

/-! ### The codes of a response (R71, R76) -/

/-- The codes of R76 that the block produces. -/
def producedCodes : List Nat := [0, 4, 5, 7, 8, 9, 10, 16, 17, 18, 19, 20, 21]

theorem rejectStatus_produced (e : Reject) : ((rejectStatus e).code.setWidth 32 : Word).toNat % 256 ∈ producedCodes := by
  cases e <;> decide

theorem raised_produced {c : Status} (h : c.raised = true) : (c.code.setWidth 32 : Word).toNat % 256 ∈ producedCodes := by
  revert h
  cases c <;> decide

theorem okWord_produced (n : Nat) : (BitVec.ofNat 32 (n * 65536)).toNat % 256 ∈ producedCodes := by
  rw [BitVec.toNat_ofNat, show n * 65536 % 2 ^ 32 % 256 = 0 by omega]
  decide

/-- Settles O11: by the cases of a step on a packet, each of which answers once and takes the packet from the port. -/
theorem everyPacketGetsOneResponse : Obligations.EveryPacketGetsOneResponse := by
  intro s p q hp
  obtain ⟨t, ht⟩ := everyStepCompletes s
  have hport : s.port.tail = q := by rw [hp, List.tail_cons]
  rcases step_packet_next hp ht with ⟨e, -, rfl⟩ | ⟨i, c, -, hc, rfl⟩ | ⟨i, b, rs, -, -, rfl⟩
  · exact ⟨_, _, _, ht, hport, rfl, rejectStatus_produced e⟩
  · exact ⟨_, _, _, ht, hport, rfl, raised_produced hc⟩
  · exact ⟨_, _, _, ht, hport, rfl, okWord_produced rs.length⟩

/-! ### The results of a command (R75) -/

/-- As many result words as the command's rule returns, few enough for `RN`, each a bit, a byte or a length in its low bits (R75). -/
def ResultsFit (i : Instr) (rs : List Word) : Prop :=
  rs.length = i.resultCount ∧ rs.length < 65536 ∧ ∀ x ∈ rs, x.toNat < 2 ^ i.resultWidth

/-- An answer of the command: a status code that commands raise, or a bank and results that fit. -/
def AnswerFits (i : Instr) : Except Status (Bank × List Word) → Prop
  | .error c => c.raised = true
  | .ok (_, rs) => ResultsFit i rs

theorem bitWord_toNat_lt (v : Bit) : (bitWord v).toNat < 2 ^ 1 := by
  rw [bitWord, BitVec.toNat_setWidth]
  omega

theorem byteWord_toNat_lt (v : Byte) : (byteWord v).toNat < 2 ^ 8 := by
  rw [byteWord, BitVec.toNat_setWidth]
  omega

theorem lengthWord_toNat_lt {n : Nat} (h : n ≤ 8192) : (BitVec.ofNat 32 n).toNat < 2 ^ 16 := by
  rw [BitVec.toNat_ofNat]
  omega

/-- One result word. -/
theorem resultsFit_singleton {i : Instr} (hi : i.resultCount = 1) {x : Word} (hx : x.toNat < 2 ^ i.resultWidth) :
    ResultsFit i [x] :=
  ⟨hi.symm, Nat.one_lt_ofNat, List.forall_mem_singleton.mpr hx⟩

section Answers
variable {i : Instr} {s : State}

theorem answerFits_afterCheck {check : Option Status} {body : Except Status (Bank × List Word)}
    (hcheck : ∀ c, check = some c → c.raised = true) (hbody : check = none → AnswerFits i body) :
    AnswerFits i (afterCheck check body) := by
  cases check with
  | none => exact hbody rfl
  | some c => exact hcheck c rfl

/-- A command that returns nothing has nothing that could not fit. -/
theorem answerFits_nil (hi : i.resultCount = 0) (b : Bank) : AnswerFits i (.ok (b, [])) :=
  ⟨hi.symm, by decide, List.forall_mem_nil _⟩

/-- The common checks 5 and 7 of R77 raise codes, so only the body's answer has to fit. -/
theorem onBank_settles {body : Bank → Except Status (Bank × List Word)} (h : AnswerFits i (body (s.bank i.bank))) :
    ∃ r, onBank i.bank body s = settle i.bank r s ∧ AnswerFits i r := by
  refine ⟨_, onBank_settle i.bank body s, ?_⟩
  split
  · exact rfl
  · split
    · exact rfl
    · exact h

/-- The common check 5 of R77 raises a code, and a constructing command returns nothing. -/
theorem constructBank_settles {made : Except Status Bank} (hi : i.resultCount = 0)
    (hmade : ∀ c, made = .error c → c.raised = true) :
    ∃ r, constructBank i.bank made s = settle i.bank r s ∧ AnswerFits i r := by
  refine ⟨_, constructBank_settle i.bank made s, ?_⟩
  split
  · exact rfl
  · cases made with
    | error c => exact hmade c rfl
    | ok b => exact answerFits_nil hi b

/-- A command that writes behind one check. -/
theorem writer_settles {check : Bank → Option Status} {new : Bank → Bank} (hi : i.resultCount = 0)
    (hcheck : ∀ b c, check b = some c → c.raised = true) :
    ∃ r, onBank i.bank (fun b => afterCheck (check b) (writeOnly (new b))) s = settle i.bank r s ∧ AnswerFits i r :=
  onBank_settles (answerFits_afterCheck (hcheck _) fun _ => answerFits_nil hi _)

/-- A command that reads behind one check: its results have to fit where the check passes. -/
theorem reader_settles {check : Bank → Option Status} {results : Bank → List Word}
    (hcheck : ∀ b c, check b = some c → c.raised = true)
    (hfit : check (s.bank i.bank) = none → ResultsFit i (results (s.bank i.bank))) :
    ∃ r, onBank i.bank (fun b => afterCheck (check b) (readOnly b (results b))) s = settle i.bank r s ∧ AnswerFits i r :=
  onBank_settles (answerFits_afterCheck (hcheck _) hfit)

/-- Every command is decided by an answer that fits: the invariant bounds a length and a range by the capacity, and the count field
bounds a list of indices. -/
theorem exec_settles (hs : s.WF) (hi : i.wellFormed = true) :
    ∃ r, exec i s = settle i.bank r s ∧ AnswerFits i r := by
  have hcap : ∀ k, (s.bank k).len ≤ 8192 := fun k => (bank_wf hs k).1.trans hs.1.2.1.2
  cases i with
  | newEmptyBuffer bk =>
    rw [exec_newEmptyBuffer]
    exact constructBank_settles (i := .newEmptyBuffer bk) rfl fun c hc => by cases hc
  | construct bk vals =>
    rw [exec_construct]
    refine constructBank_settles (i := .construct bk vals) rfl fun c hc => ?_
    split at hc <;> cases hc
    rfl
  | copy bk src =>
    rw [exec_copy]
    refine constructBank_settles (i := .copy bk src) rfl fun c hc => ?_
    unfold copyMade at hc
    split at hc <;> cases hc
    rfl
  | setBit bk n v =>
    rw [exec_setBit]
    exact writer_settles (i := .setBit bk n v) rfl fun _ _ => bitsCheck_raised
  | setBits bk idx vals =>
    rw [exec_setBits]
    refine writer_settles (i := .setBits bk idx vals) rfl fun b c hc => ?_
    split at hc
    · cases hc; rfl
    · exact bitsCheck_raised hc
  | setByte bk n v =>
    rw [exec_setByte]
    exact writer_settles (i := .setByte bk n v) rfl fun _ _ => rangeCheck_raised
  | setBytes bk first last vals =>
    rw [exec_setBytes]
    refine writer_settles (i := .setBytes bk first last vals) rfl fun b c hc => ?_
    split at hc
    · cases hc; rfl
    · exact rangeCheck_raised hc
  | fixChecksum bk =>
    rw [exec_fixChecksum]
    exact writer_settles (i := .fixChecksum bk) rfl fun _ _ => positionCheck_raised
  | rotateLeft bk =>
    rw [exec_rotateLeft]
    exact writer_settles (i := .rotateLeft bk) rfl fun _ _ => positionCheck_raised
  | rotateRight bk =>
    rw [exec_rotateRight]
    exact writer_settles (i := .rotateRight bk) rfl fun _ _ => positionCheck_raised
  | validateChecksum bk =>
    rw [exec_validateChecksum]
    refine onBank_settles (i := .validateChecksum bk)
      (answerFits_afterCheck (fun _ => positionCheck_raised) fun _ => ?_)
    split
    · exact rfl
    · exact answerFits_nil rfl _
  | getLength bk =>
    rw [exec_getLength]
    exact onBank_settles (i := .getLength bk) (resultsFit_singleton rfl (lengthWord_toNat_lt (hcap bk)))
  | getBit bk n =>
    rw [exec_getBit]
    exact reader_settles (i := .getBit bk n) (fun _ _ => bitsCheck_raised) fun _ =>
      resultsFit_singleton rfl (bitWord_toNat_lt _)
  | getByte bk n =>
    rw [exec_getByte]
    exact reader_settles (i := .getByte bk n) (fun _ _ => rangeCheck_raised) fun _ =>
      resultsFit_singleton rfl (byteWord_toNat_lt _)
  | getBits bk idx =>
    have hidx : idx.length < 65536 := (fitsCount_iff idx).mp hi
    rw [exec_getBits]
    refine reader_settles (i := .getBits bk idx) (fun _ _ => bitsCheck_raised) fun _ => ⟨?_, ?_, ?_⟩
    · exact List.length_map _
    · rwa [List.length_map]
    · exact List.forall_mem_map.mpr fun n _ => bitWord_toNat_lt _
  | getBytes bk first last =>
    rw [exec_getBytes]
    refine reader_settles (i := .getBytes bk first last) (fun _ _ => rangeCheck_raised) fun hc => ⟨?_, ?_, ?_⟩
    · simp [Bank.memRead, Instr.resultCount]
    · have hlast := (rangeCheck_eq_none hc).2.trans_le (hcap _)
      simp only [Bank.memRead, List.length_map, List.length_range']
      omega
    · exact List.forall_mem_map.mpr fun v _ => byteWord_toNat_lt v

end Answers

/-! ### The status word (R75) -/

/-- The status word of an error: `RN` and bits 15:8 are zero, and the code is in the low bits. -/
theorem errorWord_fields (c : BitVec 8) :
    (c.setWidth 32).extractLsb' 16 16 = 0#16 ∧ (c.setWidth 32).extractLsb' 8 8 = 0#8 ∧ (c.setWidth 32).extractLsb' 0 8 = c := by
  have hc := c.isLt
  refine ⟨?_, ?_, ?_⟩ <;> apply BitVec.eq_of_toNat_eq <;>
    simp only [BitVec.extractLsb'_toNat, BitVec.toNat_setWidth, Nat.shiftRight_eq_div_pow, BitVec.toNat_ofNat] <;> omega

/-- The status word of a completed command: `RN` is the number of results, and the code and bits 15:8 are zero. -/
theorem okWord_fields {n : Nat} (hn : n < 65536) :
    ((BitVec.ofNat 32 (n * 65536)).extractLsb' 16 16).toNat = n ∧ (BitVec.ofNat 32 (n * 65536)).extractLsb' 8 8 = 0#8 := by
  have hword : (BitVec.ofNat 32 (n * 65536)).toNat = n * 65536 := by
    rw [BitVec.toNat_ofNat, Nat.mod_eq_of_lt (by omega)]
  constructor
  · rw [BitVec.extractLsb'_toNat, hword, Nat.shiftRight_eq_div_pow]
    omega
  · apply BitVec.eq_of_toNat_eq
    rw [BitVec.extractLsb'_toNat, hword, Nat.shiftRight_eq_div_pow, BitVec.toNat_ofNat]
    omega

theorem code_ne_zero_of_reject (e : Reject) : (rejectStatus e).code ≠ 0 := by cases e <;> decide

/-- What R75 says of a response to packet `p`: the fields of its status word, and its result words. -/
def ResponseFits (p : Packet) (w : Word) (results : List Word) : Prop :=
  w.extractLsb' 8 8 = 0 ∧ (w.extractLsb' 16 16).toNat = results.length ∧ (w.extractLsb' 0 8 ≠ 0 → results = []) ∧
    (w.extractLsb' 0 8 = 0 → ∃ i, decode p = .accept i ∧ results.length = i.resultCount ∧
      ∀ x ∈ results, x.toNat < 2 ^ i.resultWidth)

theorem responseFits_error (p : Packet) {c : BitVec 8} (hc : c ≠ 0) : ResponseFits p (c.setWidth 32) [] := by
  obtain ⟨hrn, hzero, hcode⟩ := errorWord_fields c
  exact ⟨hzero, by rw [hrn]; rfl, fun _ => rfl, fun h => absurd (hcode.symm.trans h) hc⟩

theorem responseFits_ok {p : Packet} {i : Instr} (hd : decode p = .accept i) {rs : List Word} (h : ResultsFit i rs) :
    ResponseFits p (BitVec.ofNat 32 (rs.length * 65536)) rs := by
  obtain ⟨hcount, hlt, hwidth⟩ := h
  obtain ⟨hrn, hzero⟩ := okWord_fields hlt
  exact ⟨hzero, hrn, fun h => absurd (okWord_code _) h, fun _ => ⟨i, hd, hcount, hwidth⟩⟩

/-- Settles O12: a packet is rejected with the decoder's code, or its command, whose lists a packet carried, is decided by an answer
that fits. -/
theorem responsesHaveTheirFormat : Obligations.ResponsesHaveTheirFormat := by
  intro s t p q hs hp hstep
  cases hd : decode p with
  | reject e =>
    rw [step_of_reject hp hd, raise_eq] at hstep
    cases hstep
    exact ⟨_, _, rfl, hd ▸ responseFits_error p (code_ne_zero_of_reject e)⟩
  | accept i =>
    rw [step_of_accept hp hd] at hstep
    obtain ⟨r, hr, hfit⟩ := exec_settles hs (encodeOfDecode p i hd).1
    rcases r with c | ⟨b, rs⟩
    · rw [hr, settle_error] at hstep
      cases hstep
      exact ⟨_, _, rfl, hd ▸ responseFits_error p fun h0 => code_ne_zero_of_raised hfit (by rw [h0]; rfl)⟩
    · rw [hr, settle_ok] at hstep
      cases hstep
      exact ⟨_, _, rfl, hd ▸ responseFits_ok hd hfit⟩

end Sys2Proof.Machine
end

section
/-! SUPPORT. The statements of 30_encoding.md on the host's side (R80, R81): which texts an operand may have, which lines are accepted and
what they stand for, and the pseudo-instructions run. -/

namespace Sys2Proof.Machine

/-! ### Numbers (R80) -/

/-- The digits of a numeral are read as its value, and nothing but digits is read. -/
theorem digitsValue_iff (hex : Bool) (cs : List Char) (v : Nat) :
    digitsValue (if hex then 16 else 10) 0 cs = some v ↔
      ∃ ds : List (Char × Nat), ds.map Prod.fst = cs ∧ (∀ d ∈ ds, d ∈ decimalDigits ++ if hex then hexLetters else []) ∧
        v = (Numeral.mk hex ds).value := by
  simp only [digitsValue_eq_some_iff, digitValue_eq_some_iff, Nat.zero_mul, Nat.zero_add]
  rfl

/-- A text without an `x` can only be read as a decimal number. -/
theorem readNumber_decimal {cs : List Char} (hne : cs ≠ []) (hx : 'x' ∉ cs) : readNumber cs = digitsValue 10 0 cs := by
  unfold readNumber
  split
  · simp at hx
  · rfl
  · exact absurd rfl hne

theorem not_mem_decimalDigits_x (v : Nat) : ('x', v) ∉ decimalDigits := by simp [decimalDigits]

/-- A written numeral is read as its value. -/
theorem readNumber_text {n : Numeral} (hn : n.Written) : readNumber n.text = some n.value := by
  obtain ⟨hex, ds⟩ := n
  obtain ⟨hne, hds⟩ := hn
  have hread := (digitsValue_iff hex _ _).mpr ⟨ds, rfl, hds, rfl⟩
  cases hex with
  | true =>
    obtain ⟨d, ds, rfl⟩ := List.exists_cons_of_ne_nil hne
    exact hread
  | false =>
    refine (readNumber_decimal (by simpa [Numeral.text] using hne) fun hx => ?_).trans hread
    obtain ⟨⟨_, v⟩, hd, rfl⟩ := List.mem_map.mp hx
    exact not_mem_decimalDigits_x v (by simpa using hds _ hd)

/-- What is read as a number is the text of a written numeral of that value. -/
theorem exists_numeral_of_readNumber {cs : List Char} {v : Nat} (h : readNumber cs = some v) :
    ∃ n : Numeral, n.Written ∧ n.text = cs ∧ n.value = v := by
  have key : ∀ (hex : Bool) (c : Char) (cs : List Char), digitsValue (if hex then 16 else 10) 0 (c :: cs) = some v →
      ∃ n : Numeral, n.Written ∧ n.text = (if hex then ['0', 'x'] else []) ++ c :: cs ∧ n.value = v := by
    intro hex c cs h
    obtain ⟨ds, htext, hds, rfl⟩ := (digitsValue_iff hex _ _).mp h
    refine ⟨⟨hex, ds⟩, ⟨?_, hds⟩, congrArg _ htext, rfl⟩
    rintro rfl
    cases htext
  unfold readNumber at h
  split at h
  · exact key true _ _ h
  · exact key false _ _ h
  · cases h

/-- A field is read exactly from a number that it can hold. -/
theorem readField_eq_some_iff {w : Nat} (cs : List Char) (v : BitVec w) :
    readField w cs = some v ↔ readNumber cs = some v.toNat := by
  rw [readField, Option.bind_eq_some_iff]
  constructor
  · rintro ⟨n, hn, h⟩
    split at h
    · next hlt =>
      cases h
      rw [hn, BitVec.toNat_ofNat, Nat.mod_eq_of_lt hlt]
    · cases h
  · intro h
    exact ⟨v.toNat, h, by rw [if_pos v.isLt, BitVec.ofNat_toNat, BitVec.setWidth_eq]⟩

theorem readField_text {w : Nat} {n : Numeral} (hn : n.Written) (v : BitVec w) : readField w n.text = some v ↔ Fits n v := by
  rw [readField_eq_some_iff, readNumber_text hn, Option.some_inj, Fits, eq_comm]

theorem readFields_text {w : Nat} {ns : List Numeral} (hns : ∀ n ∈ ns, n.Written) (vs : List (BitVec w)) :
    (ns.map Numeral.text).mapM (readField w) = some vs ↔ List.Forall₂ Fits ns vs := by
  rw [mapM_eq_some_iff, List.forall₂_map_left_iff]
  induction ns generalizing vs with
  | nil => simp
  | cons n ns ih =>
    obtain ⟨hn, hns⟩ := List.forall_mem_cons.mp hns
    cases vs with
    | nil => simp
    | cons v vs => rw [List.forall₂_cons, List.forall₂_cons, readField_text hn, ih hns]

/-! ### Banks and bit values (R80) -/

theorem bankText_injective : Function.Injective bankText := by
  intro j k h
  have htail := (List.cons.inj h).2
  rw [← Nat.ofDigitChars_toDigits (b := 10) (n := j) (by decide) (by decide), htail,
    Nat.ofDigitChars_toDigits (by decide) (by decide)]

theorem bankNames_eq : bankNames = (List.range 16).map bankText := by decide

theorem readBank_eq_some_iff (cs : List Char) (k : BankNo) : readBank cs = some k ↔ cs = bankText k.toNat := by
  have hidx : ∀ i, bankNames.idxOf? cs = some i ↔ i < 16 ∧ cs = bankText i := by
    intro i
    rw [bankNames_eq, List.idxOf?_eq_some_iff]
    simp only [List.length_map, List.length_range, List.getElem_map, List.getElem_range, exists_prop]
    refine and_congr_right fun _ => ⟨fun h => h.1.symm, ?_⟩
    rintro rfl
    exact ⟨rfl, fun j hj he => hj.ne (bankText_injective he)⟩
  rw [readBank, Option.map_eq_some_iff]
  constructor
  · rintro ⟨i, hi, rfl⟩
    obtain ⟨hlt, rfl⟩ := (hidx i).mp hi
    rw [BitVec.toNat_ofNat, Nat.mod_eq_of_lt hlt]
  · rintro rfl
    exact ⟨k.toNat, (hidx _).mpr ⟨k.isLt, rfl⟩, by rw [BitVec.ofNat_toNat, BitVec.setWidth_eq]⟩

theorem readBank_bankText (k : Nat) (bk : BankNo) : readBank (bankText k) = some bk ↔ bk.toNat = k := by
  rw [readBank_eq_some_iff, bankText_injective.eq_iff, eq_comm]

theorem readBit_eq_some_iff (cs : List Char) (v : Bit) : readBit cs = some v ↔ (cs, v) ∈ bitSpellings := by
  constructor
  · intro h
    unfold readBit at h
    split at h
    · next hcs => cases h; rcases hcs with rfl | rfl <;> decide
    · split at h
      · next hcs => cases h; rcases hcs with rfl | rfl <;> decide
      · cases h
  · intro h
    simp only [bitSpellings, List.mem_cons, Prod.mk.injEq, List.not_mem_nil, or_false] at h
    rcases h with ⟨rfl, rfl⟩ | ⟨rfl, rfl⟩ | ⟨rfl, rfl⟩ | ⟨rfl, rfl⟩ <;> decide

/-- Settles O54: a number is read digit by digit as the tables of digits say, a bank by its place among the sixteen names, which differ,
and a bit value by its spelling. -/
theorem operandsThatDoNotFitAreRefused : Obligations.OperandsThatDoNotFitAreRefused := by
  refine ⟨fun w cs v => ⟨fun h => ?_, ?_⟩, readBank_eq_some_iff, readBit_eq_some_iff⟩
  · obtain ⟨n, hn, rfl, hv⟩ := exists_numeral_of_readNumber ((readField_eq_some_iff cs v).mp h)
    exact ⟨n, hn, rfl, hv.symm⟩
  · rintro ⟨n, hn, rfl, hv⟩
    exact (readField_text hn v).mpr hv

/-! ### Lines (R80, R81) -/

/-- What a line of a mnemonic is assembled to: what the mnemonic gives for the bank of that number and the other operands, where packets
can carry it. -/
theorem assembleLine_lineText (m : String) {mn : Mnemonic} (k : Nat) (as : List Arg)
    (hl : mnemonicMap.lookup m.toList = some mn) (ha : ∀ a ∈ as, a.Words) {comment : List Char}
    (hc : comment = [] ∨ ∃ c, comment = ' ' :: ';' :: c) (cs : List Instr) :
    assembleLine (lineText m k (as.map Arg.text) ++ comment) = some cs ↔
      ∃ bk : BankNo, bk.toNat = k ∧ ∃ is, readCommand mn bk as = some is ∧ encodable is = some cs := by
  have hm : IsWord m.toList := isWord_mnemonic (List.mem_map_of_mem (mem_of_lookup hl))
  rw [lineText, assembleLine_eq hm hl (isWord_bankText k) ha hc]
  simp only [Option.bind_eq_some_iff, readBank_bankText]

@[simp] theorem encodable_singleton (i : Instr) (cs : List Instr) :
    encodable [i] = some cs ↔ i.wellFormed = true ∧ cs = [i] := by
  rw [encodable_eq_some_iff, List.forall_mem_singleton, eq_comm (a := [i])]

@[simp] theorem encodable_replicate (n : Nat) (i : Instr) (cs : List Instr) :
    encodable (List.replicate n i) = some cs ↔ (n ≠ 0 → i.wellFormed = true) ∧ cs = List.replicate n i := by
  rw [encodable_eq_some_iff, eq_comm (a := List.replicate n i)]
  simp [List.mem_replicate]

theorem readBits_iff (ws : List (List Char)) (vs : List Bit) :
    ws.mapM readBit = some vs ↔ List.Forall₂ (fun w v => (w, v) ∈ bitSpellings) ws vs := by
  simp only [mapM_eq_some_iff, readBit_eq_some_iff]

theorem words_numeral {n : Numeral} (hn : n.Written) : (Arg.one n.text).Words := isWord_numeral hn

theorem words_numerals {ns : List Numeral} (h : ∀ n ∈ ns, n.Written) : (Arg.many (ns.map Numeral.text)).Words :=
  List.forall_mem_map.mpr fun n hn => isWord_numeral (h n hn)

/-- Every form of R80 and R81: its line is assembled to the commands that its row gives. -/
theorem assembleLine_iff_gives {l : Line} (hl : l.Written) {comment : List Char}
    (hc : comment = [] ∨ ∃ c, comment = ' ' :: ';' :: c) (cs : List Instr) :
    assembleLine (l.text ++ comment) = some cs ↔ l.Gives cs := by
  cases l with
  | newEmptyBuffer k =>
    refine (assembleLine_lineText "newEmptyBuffer" k [] rfl (by simp) hc cs).trans ?_
    simp [readCommand, Line.Gives, Instr.wellFormed]
  | getLength k =>
    refine (assembleLine_lineText "getLength" k [] rfl (by simp) hc cs).trans ?_
    simp [readCommand, Line.Gives, Instr.wellFormed]
  | validateChecksum k =>
    refine (assembleLine_lineText "validateChecksum" k [] rfl (by simp) hc cs).trans ?_
    simp [readCommand, Line.Gives, Instr.wellFormed]
  | fixChecksum k =>
    refine (assembleLine_lineText "fixChecksum" k [] rfl (by simp) hc cs).trans ?_
    simp [readCommand, Line.Gives, Instr.wellFormed]
  | rotateLeft k =>
    refine (assembleLine_lineText "rotateLeft" k [] rfl (by simp) hc cs).trans ?_
    simp [readCommand, Line.Gives, Instr.wellFormed]
  | rotateRight k =>
    refine (assembleLine_lineText "rotateRight" k [] rfl (by simp) hc cs).trans ?_
    simp [readCommand, Line.Gives, Instr.wellFormed]
  | copy k src =>
    refine (assembleLine_lineText "copy" k [.one (bankText src)] rfl (by simpa [Arg.Words] using isWord_bankText src) hc cs).trans ?_
    simp [readCommand, Line.Gives, Instr.wellFormed, readBank_bankText]
  | getBit k n =>
    refine (assembleLine_lineText "getBit" k [.one n.text] rfl (by simpa using words_numeral hl) hc cs).trans ?_
    simp [readCommand, Line.Gives, Instr.wellFormed, readField_text hl]
  | getByte k n =>
    refine (assembleLine_lineText "getByte" k [.one n.text] rfl (by simpa using words_numeral hl) hc cs).trans ?_
    simp [readCommand, Line.Gives, Instr.wellFormed, readField_text hl]
  | clearBit k n =>
    refine (assembleLine_lineText "clearBit" k [.one n.text] rfl (by simpa using words_numeral hl) hc cs).trans ?_
    simp [readCommand, Line.Gives, Instr.wellFormed, readField_text hl, Pseudo.expand]
  | rotateLeftN k n =>
    refine (assembleLine_lineText "rotateLeftN" k [.one n.text] rfl (by simpa using words_numeral hl) hc cs).trans ?_
    simp [readCommand, Line.Gives, Instr.wellFormed, readNumber_text hl, Pseudo.expand]
  | rotateRightN k n =>
    refine (assembleLine_lineText "rotateRightN" k [.one n.text] rfl (by simpa using words_numeral hl) hc cs).trans ?_
    simp [readCommand, Line.Gives, Instr.wellFormed, readNumber_text hl, Pseudo.expand]
  | setBit k n v =>
    obtain ⟨hn, hv⟩ := hl
    refine (assembleLine_lineText "setBit" k [.one n.text, .one v] rfl (by simpa using ⟨words_numeral hn, hv⟩) hc cs).trans ?_
    simp [readCommand, Line.Gives, Instr.wellFormed, Option.bind_eq_some_iff, readField_text hn, readBit_eq_some_iff]
  | setByte k n v =>
    obtain ⟨hn, hv⟩ := hl
    refine (assembleLine_lineText "setByte" k [.one n.text, .one v.text] rfl
      (by simpa using ⟨words_numeral hn, words_numeral hv⟩) hc cs).trans ?_
    simp [readCommand, Line.Gives, Instr.wellFormed, Option.bind_eq_some_iff, readField_text hn, readField_text hv]
  | getBytes k first last =>
    obtain ⟨hfirst, hlast⟩ := hl
    refine (assembleLine_lineText "getBytes" k [.one first.text, .one last.text] rfl
      (by simpa using ⟨words_numeral hfirst, words_numeral hlast⟩) hc cs).trans ?_
    simp [readCommand, Line.Gives, Instr.wellFormed, Option.bind_eq_some_iff, readField_text hfirst, readField_text hlast]
  | construct k ns =>
    refine (assembleLine_lineText "construct" k [.many (ns.map Numeral.text)] rfl (by simpa using words_numerals hl) hc cs).trans ?_
    simp [readCommand, Line.Gives, Instr.wellFormed, readFields_text hl, ListFits, and_assoc, -List.mapM_map]
  | getBits k ns =>
    refine (assembleLine_lineText "getBits" k [.many (ns.map Numeral.text)] rfl (by simpa using words_numerals hl) hc cs).trans ?_
    simp [readCommand, Line.Gives, Instr.wellFormed, readFields_text hl, ListFits, and_assoc, -List.mapM_map]
  | setBits k ns vs =>
    obtain ⟨hns, hvs⟩ := hl
    refine (assembleLine_lineText "setBits" k [.many (ns.map Numeral.text), .many vs] rfl
      (by simpa using ⟨words_numerals hns, hvs⟩) hc cs).trans ?_
    simp [readCommand, Line.Gives, Instr.wellFormed, Option.bind_eq_some_iff, readFields_text hns, readBits_iff, ListFits,
      and_assoc, and_left_comm, ← exists_and_left, -List.mapM_map]
  | setBytes k first last ns =>
    obtain ⟨hfirst, hlast, hns⟩ := hl
    refine (assembleLine_lineText "setBytes" k [.one first.text, .one last.text, .many (ns.map Numeral.text)] rfl
      (by simpa using ⟨words_numeral hfirst, words_numeral hlast, words_numerals hns⟩) hc cs).trans ?_
    simp [readCommand, Line.Gives, Instr.wellFormed, Option.bind_eq_some_iff, readField_text hfirst, readField_text hlast,
      readFields_text hns, ListFits, and_assoc, -List.mapM_map]

/-- Whatever line is accepted, packets can carry its commands (R80). -/
theorem assembleLine_wellFormed {line : List Char} {cs : List Instr} (h : assembleLine line = some cs) :
    ∀ i ∈ cs, i.wellFormed = true := by
  unfold assembleLine at h
  split at h
  · cases h
    exact List.forall_mem_nil _
  · split at h
    · obtain ⟨bk, -, h⟩ := Option.bind_eq_some_iff.mp h
      obtain ⟨is, -, h⟩ := Option.bind_eq_some_iff.mp h
      obtain ⟨hwf, rfl⟩ := (encodable_eq_some_iff is cs).mp h
      exact hwf
    · cases h
  · cases h

/-- Settles O53: the forms one by one, and the check that ends every accepted line. -/
theorem assembledLinesDecode : Obligations.AssembledLinesDecode :=
  ⟨fun _ _ hl hc cs => assembleLine_iff_gives hl hc cs, fun _ _ h i hi =>
    ⟨assembleLine_wellFormed h i hi, decode_encode (assembleLine_wellFormed h i hi)⟩⟩

/-! ### Pseudo-instructions (R81) -/

theorem exec_port {i : Instr} {s t : State} (h : exec i s = .next t) : t.port = s.port.tail := by
  rcases exec_next h with ⟨c, -, rfl⟩ | ⟨b, rs, -, rfl⟩ <;> rfl

theorem run_succ_of_step {s t : State} (h : step s = .next t) (n : Nat) :
    Host.Core.run Sys2Proof.core (n + 1) s = Host.Core.run Sys2Proof.core n t := by
  have hcore : Sys2Proof.core.step s = .next t := h
  simp only [Host.Core.run, hcore]

/-- Packets of one command, presented one after another, run that command as often: each step decodes the command that was encoded and
leaves the packets behind it. -/
theorem run_replicate {i : Instr} (hi : i.wellFormed = true) {n : Nat} {s : State} {q : List Input}
    (hp : s.port = (List.replicate n i).map (fun j => Input.packet (encode j)) ++ q) :
    Host.Core.run Sys2Proof.core n s = repeatExec n i s := by
  induction n generalizing s with
  | zero => rfl
  | succ n ih =>
    rw [List.replicate_succ, List.map_cons, List.cons_append] at hp
    obtain ⟨t, ht⟩ := exec_completes i s
    have hstep : step s = .next t := (step_of_accept hp (decode_encode hi)).trans ht
    rw [run_succ_of_step hstep, ih (by rw [exec_port ht, hp, List.tail_cons]), repeatExec, ht]

/-- Settles O52: an expansion into rotations is so many copies of one command. -/
theorem pseudoInstructionsExpand : Obligations.PseudoInstructionsExpand :=
  ⟨fun _ _ => rfl, fun _ bk _ _ hp => run_replicate (i := .rotateLeft bk) rfl hp,
    fun _ bk _ _ hp => run_replicate (i := .rotateRight bk) rfl hp⟩

end Sys2Proof.Machine
end

section
/-! SUPPORT. The statements of 41_construction.md: what the three constructing commands make of their bank, and the length that getLength
returns. -/

namespace Sys2Proof.Machine

/-! ### The constructing commands (R100 to R102) -/

section Construct
variable {i : Instr} {s : State} {b : Bank}

/-- A constructing command that made its bank commits it: every other bank and everything else are kept (R32). -/
theorem commits_of_constructBank (he : exec i s = constructBank i.bank (.ok b) s) (hs : s.WF) (hk : i.bank.toNat < s.cfg.nb)
    {P : Bank → Prop} (hp : P b) : Commits i s P :=
  commits_of_complete (he.trans (constructBank_ok hk b)) hs hk hp

/-- After a constructing command its bank is ready and is the bank that was made, whatever it was before. -/
theorem exec_constructed {bk : BankNo} (he : exec i s = constructBank bk (.ok b) s) (hs : s.WF) (hk : bk.toNat < s.cfg.nb)
    (hv : b.valid = true) (hb : b.WF s.cfg.cap) : ∃ t, exec i s = .next t ∧ Ready t bk ∧ t.bank bk = b := by
  have hlen : s.banks.length = s.cfg.nb := hs.2.1
  have hbank : (s.setBank bk b).bank bk = b := setBank_bank_same b (hlen ▸ hk)
  refine ⟨_, he.trans ((constructBank_ok hk b).trans (complete_eq [] _)), ⟨answered_wf (setBank_wf hs hb) _, hk, ?_⟩, hbank⟩
  rw [answered_bank_kept, hbank, hv]

end Construct

/-! ### newEmptyBuffer (R100) -/

theorem encode_newEmptyBuffer (bk : BankNo) : encode (.newEmptyBuffer bk) = [headerOf 0x01 bk.toNat 0 0] :=
  congrArg (fun h => [h]) (headerWord_eq .newEmptyBuffer bk 0 0)

theorem emptyLen_le_cap {s : State} (hs : s.WF) : Config.emptyLen ≤ s.cfg.cap := by
  obtain ⟨⟨-, ⟨hcap, -⟩, -⟩, -, -⟩ := hs
  exact hcap

theorem holds_zeros (len : Nat) : (Bank.zeros len).Holds len fun _ => 0 :=
  ⟨zeros_valid len, zeros_len len, byte_zeros len⟩

/-- A sum of zero bytes is zero, from any lower bound (R161). -/
theorem csum_zeros (len lo : Nat) : (Bank.zeros len).csum lo = 0 := by
  simp [Bank.csum]

/-- A checksum byte that holds the computed sum validates (R162). -/
theorem validateChecksum_returns {s : State} {bk : BankNo} (hr : Ready s bk) (hl : Config.csumPos < (s.bank bk).len)
    (hsum : (s.bank bk).byte Config.csumPos = (s.bank bk).csum s.cfg.csumLo) : Returns (.validateChecksum bk) s [] := by
  refine returns_of_onBank (exec_validateChecksum bk s) hr ?_
  rw [Instr.bank, positionCheck_none hl, afterCheck_none, if_neg (not_not.mpr hsum), readOnly]

/-- Settles O27: the bank made holds zeros alone, and so its checksum byte and the sum are both zero. -/
theorem newEmptyBufferCompletes : Obligations.NewEmptyBufferCompletes := by
  intro s bk hs hk
  have he : exec (.newEmptyBuffer bk) s = constructBank bk (.ok (Bank.zeros Config.emptyLen)) s := exec_newEmptyBuffer bk s
  refine ⟨encode_newEmptyBuffer bk, commits_of_constructBank he hs hk (holds_zeros _), fun t ht => ?_⟩
  obtain ⟨t', ht', hready, hbank⟩ := exec_constructed he hs hk (zeros_valid _) (bank_wf_zeros (emptyLen_le_cap hs))
  cases ht.symm.trans ht'
  refine validateChecksum_returns hready ?_ ?_
  · rw [hbank, zeros_len]
    decide
  · rw [hbank, byte_zeros, csum_zeros]

/-! ### construct (R101) -/

theorem encode_construct (bk : BankNo) {vals : List Byte} (hn : vals.length < 65536) :
    encode (.construct bk vals) = headerOf 0x02 bk.toNat 0 vals.length :: vals.map (BitVec.setWidth 32) := by
  have hheader := headerWord_eq .construct bk 0 (countField vals)
  rw [toNat_countField hn] at hheader
  exact congrArg (· :: vals.map byteWord) hheader

theorem holds_ofBytes (vals : List Byte) : (Bank.ofBytes vals).Holds vals.length fun j => vals.getD j 0 :=
  ⟨ofBytes_valid vals, ofBytes_len vals, byte_ofBytes vals⟩

/-- Settles O28: the two outcomes of the common check 8 of R77. -/
theorem constructCompletes : Obligations.ConstructCompletes := by
  refine fun s bk vals hs hk hn => ⟨encode_construct bk hn, fun hfits => ?_, fun hcap => ?_⟩
  · have he : exec (.construct bk vals) s = constructBank bk (.ok (Bank.ofBytes vals)) s := by
      rw [exec_construct, if_neg (Nat.not_lt.mpr hfits)]
    exact commits_of_constructBank he hs hk (holds_ofBytes vals)
  · exact fails_of_raise (exec_construct_capacity hk hcap)

/-! ### copy (R102) -/

theorem encode_copy (bk src : BankNo) : encode (.copy bk src) = [headerOf 0x03 bk.toNat src.toNat 0] :=
  congrArg (fun h => [h]) (headerWord_eq .copy bk src 0)

/-- A constructed source is copied as it is (R102). -/
theorem copyMade_constructed {s : State} {src : BankNo} (hk : src.toNat < s.cfg.nb) (hv : (s.bank src).valid = true) :
    copyMade s src = .ok (s.bank src) := by
  rw [copyMade, if_neg (by simp [hasBank_iff.mpr hk, hv]), ← hv]

/-- Settles O29: the common checks 5 and 6 of R77, and behind them the copy. -/
theorem copyCompletes : Obligations.CopyCompletes := by
  refine fun s bk src hs => ⟨encode_copy bk src, fun hk => ?_, fun hk => ⟨fun hsrc hv => ?_, fun hsrc => ?_⟩⟩
  · exact fails_of_raise (exec_badBank hk)
  · have he : exec (.copy bk src) s = constructBank bk (.ok (s.bank src)) s := by
      rw [exec_copy, copyMade_constructed hsrc hv]
    exact commits_of_constructBank he hs hk rfl
  · exact fails_of_raise (exec_copy_noSource hk hsrc)

/-! ### getLength (R104) -/

theorem encode_getLength (bk : BankNo) : encode (.getLength bk) = [headerOf 0x04 bk.toNat 0 0] :=
  congrArg (fun h => [h]) (headerWord_eq .getLength bk 0 0)

/-- Settles O30: the two outcomes of the common check 7 of R77. -/
theorem getLengthCompletes : Obligations.GetLengthCompletes := by
  refine fun s bk hs hk => ⟨encode_getLength bk, fun hv => ?_, fun hv => ?_⟩
  · exact returns_of_onBank (exec_getLength bk s) ⟨hs, hk, hv⟩ rfl
  · exact fails_of_raise (exec_notConstructed (i := .getLength bk) rfl hk hv)

end Sys2Proof.Machine
end

section
/-! SUPPORT. The statements of 42_bit_access.md: the bits that the two readers return, the bits that the two writers leave, and a list
of writes in another order. -/

namespace Sys2Proof.Machine

/-! ### A command behind its own check -/

section Checked
variable {i : Instr} {s : State} {bk : BankNo} {check : Bank → Option Status}

/-- A command on a ready bank whose own check reports a status code fails with it, whatever its body is. -/
theorem fails_of_check {body : Bank → Except Status (Bank × List Word)}
    (he : exec i s = onBank bk (fun b => afterCheck (check b) (body b)) s) (hi : i.bank = bk) (hr : Ready s bk) {c : Status}
    (hcheck : check (s.bank bk) = some c) : Fails i s c.code.toNat := by
  subst hi
  exact fails_of_onBank he hr (by rw [hcheck, afterCheck_some])

/-- A writer on a ready bank that passes its check commits its new bank. -/
theorem commits_of_check {new : Bank → Bank}
    (he : exec i s = onBank bk (fun b => afterCheck (check b) (writeOnly (new b))) s) (hi : i.bank = bk) (hr : Ready s bk)
    (hcheck : check (s.bank bk) = none) {P : Bank → Prop} (hp : P (new (s.bank bk))) : Commits i s P := by
  subst hi
  exact commits_of_onBank he hr (by rw [hcheck, afterCheck_none, writeOnly]) hp

end Checked

/-! ### The check on indices -/

/-- An index list with an index out of bounds, its indices still in their fields (R120). -/
theorem bitsCheck_map_some {len : Nat} {idx : List Half} (h : ∃ i ∈ idx, 8 * len ≤ i.toNat) :
    bitsCheck len (idx.map BitVec.toNat) = some .outOfBounds := by
  obtain ⟨i, hi, hl⟩ := h
  exact bitsCheck_some ⟨i.toNat, List.mem_map_of_mem hi, hl⟩

/-- An index list all in bounds, its indices still in their fields (R120). -/
theorem bitsCheck_map_none {len : Nat} {idx : List Half} (h : ∀ i ∈ idx, i.toNat < 8 * len) :
    bitsCheck len (idx.map BitVec.toNat) = none :=
  bitsCheck_none (List.forall_mem_map.mpr h)

/-- The check on one index is the check on a list of one. -/
theorem bitsCheck_singleton_some {len n : Nat} (h : 8 * len ≤ n) : bitsCheck len [n] = some .outOfBounds :=
  bitsCheck_some ⟨n, List.mem_singleton_self n, h⟩

theorem bitsCheck_singleton_none {len n : Nat} (h : n < 8 * len) : bitsCheck len [n] = none :=
  bitsCheck_none (List.forall_mem_singleton.mpr h)

/-! ### getBit (R121) -/

theorem encode_getBit (bk : BankNo) (i : Half) : encode (.getBit bk i) = [headerOf 0x10 bk.toNat 0 i.toNat] :=
  congrArg (fun h => [h]) (headerWord_eq .getBit bk 0 i)

/-- Settles O31: the two outcomes of the check on the index. -/
theorem getBitCompletes : Obligations.GetBitCompletes := by
  refine fun s bk i hr => ⟨encode_getBit bk i, fun hi => ?_, fun hi => ?_⟩
  · have hret := exec_returned (exec_getBit bk s i) rfl hr (bitsCheck_singleton_none hi)
    rwa [bitWord_bitAt] at hret
  · exact fails_of_check (exec_getBit bk s i) rfl hr (bitsCheck_singleton_some hi)

/-! ### setBit (R122) -/

/-- The header of setBit carries the value in `AUX[0]` (R61). -/
theorem encode_setBit (bk : BankNo) (i : Half) (v : Bit) :
    encode (.setBit bk i v) = [headerOf 0x11 bk.toNat v.toNat i.toNat] := by
  have hheader := headerWord_eq .setBit bk (v.setWidth 4) i
  rw [BitVec.toNat_setWidth_of_le (by decide)] at hheader
  exact congrArg (fun h => [h]) hheader

/-- Settles O32: the two outcomes of the check on the index, and behind it every bit after one is written. -/
theorem setBitCompletes : Obligations.SetBitCompletes := by
  refine fun s bk i v hr => ⟨encode_setBit bk i v, fun hi => ?_, fun hi => ?_⟩
  · refine commits_of_check (exec_setBit bk s i v) rfl hr (bitsCheck_singleton_none hi) ⟨hr.2.2, rfl, fun n => ?_⟩
    rw [bitSet_setBitAt (ready_bytes_wf hr), Bool.beq_eq_decide_eq]
  · exact fails_of_check (exec_setBit bk s i v) rfl hr (bitsCheck_singleton_some hi)

/-! ### getBits (R123) -/

/-- The header of a command whose `A` field counts a list (R61, R65). -/
theorem headerWord_countField (o : Opcode) (bk : BankNo) {α : Type} {l : List α} (hl : l.length < 65536) :
    headerWord o bk 0 (countField l) = headerOf o.code.toNat bk.toNat 0 l.length := by
  rw [headerWord_eq, toNat_countField hl]
  rfl

theorem encode_getBits (bk : BankNo) {idx : List Half} (hn : idx.length < 65536) :
    encode (.getBits bk idx) = headerOf 0x12 bk.toNat 0 idx.length :: idx.map (BitVec.setWidth 32) :=
  congrArg (· :: idx.map indexWord) (headerWord_countField .getBits bk hn)

/-- Settles O33: the two outcomes of the check on all indices, which comes before the first result. -/
theorem getBitsCompletes : Obligations.GetBitsCompletes := by
  refine fun s bk idx hr hn => ⟨encode_getBits bk hn, fun hi => ?_, fun hi => ?_⟩
  · have hret := exec_returned (exec_getBits bk s idx) rfl hr (bitsCheck_map_none hi)
    simpa only [bitWord_bitAt] using hret
  · exact fails_of_check (exec_getBits bk s idx) rfl hr (bitsCheck_map_some hi)

/-! ### setBits (R124) -/

theorem encode_setBits (bk : BankNo) {idx : List Half} {vals : List Bit} (hi : idx.length < 65536) (hv : vals.length < 65536) :
    encode (.setBits bk idx vals) = headerOf 0x13 bk.toNat 0 idx.length :: operandOf vals.length 0 ::
      (idx.map (BitVec.setWidth 32) ++ vals.map (BitVec.setWidth 32)) := by
  have hheader : headerWord .setBits bk 0 (countField idx) = headerOf 0x13 bk.toNat 0 idx.length :=
    headerWord_countField .setBits bk hi
  have hoperand : operandWord (countField vals) 0 = operandOf vals.length 0 := by
    rw [operandWord_eq, toNat_countField hv]
    rfl
  rw [← hheader, ← hoperand]
  rfl

/-- Settles O34: the check on the counts, then the check on all indices, then the writes, of which the last to an index stands. -/
theorem setBitsCompletes : Obligations.SetBitsCompletes := by
  refine fun s bk idx vals hr hi hv => ⟨encode_setBits bk hi hv, fun hne => ?_, fun heq => ⟨fun hout => ?_, fun hin => ?_⟩⟩
  · exact fails_of_check (exec_setBits bk s idx vals) rfl hr (if_pos hne)
  · exact fails_of_check (exec_setBits bk s idx vals) rfl hr ((if_neg (not_not.mpr heq)).trans (bitsCheck_map_some hout))
  · refine commits_of_check (exec_setBits bk s idx vals) rfl hr ((if_neg (not_not.mpr heq)).trans (bitsCheck_map_none hin)) ?_
    exact ⟨(setBitsAt_valid _ _).trans hr.2.2, setBitsAt_len _ _, bitSet_setBitsAt (ready_bytes_wf hr) _⟩

/-! ### Writes in another order (R124, C4) -/

/-- Whether every index is in bounds does not depend on the order of the list. -/
theorem bitsCheck_perm {len : Nat} {idx idx' : List Nat} (h : idx.Perm idx') : bitsCheck len idx = bitsCheck len idx' := by
  rw [bitsCheck, bitsCheck, h.all_eq]

/-- Writes to distinct indices give every index the same value in any order. -/
theorem lastWrite_perm {ws ws' : List (Nat × Bit)} (h : ws.Perm ws') (hd : (ws.map Prod.fst).Nodup) (n : Nat) (old : Bool) :
    lastWrite ws n old = lastWrite ws' n old := by
  induction h generalizing old with
  | nil => rfl
  | cons w _ ih => rw [lastWrite_cons, lastWrite_cons, ih (List.nodup_cons.mp hd).2]
  | swap w w' ws =>
    have hne : w'.1 ≠ w.1 := fun he => (List.nodup_cons.mp hd).1 (by simp [he])
    simp only [lastWrite_cons]
    rcases eq_or_ne n w.1 with rfl | hn
    · simp [hne.symm]
    · simp [hn]
  | trans h₁ _ ih₁ ih₂ => rw [ih₁ hd, ih₂ ((h₁.map Prod.fst).nodup hd)]

/-- Writes to distinct indices leave the same bank in any order (C4). -/
theorem setBitsAt_perm {b : Bank} (hb : b.bytes.WF) {ws ws' : List (Nat × Bit)} (h : ws.Perm ws')
    (hd : (ws.map Prod.fst).Nodup) : b.setBitsAt ws = b.setBitsAt ws' := by
  refine bank_ext_bits (wf_setBitsAt hb ws) (wf_setBitsAt hb ws') (by simp) (by simp) fun n => ?_
  rw [bitSet_setBitsAt hb, bitSet_setBitsAt hb, lastWrite_perm h hd]

/-- What a command on a bank does is decided by its body's answer for that bank. -/
theorem onBank_congr {s : State} {bk : BankNo} {body body' : Bank → Except Status (Bank × List Word)}
    (h : body (s.bank bk) = body' (s.bank bk)) : onBank bk body s = onBank bk body' s := by
  rw [onBank_settle, onBank_settle, h]

/-- The writes of a setBits command as numbers, from its pairs of an index and a value. -/
theorem zip_map_toNat (idx : List Half) (vals : List Bit) :
    (idx.map BitVec.toNat).zip vals = (idx.zip vals).map (Prod.map BitVec.toNat id) := by
  rw [← List.zip_map, List.map_id]

/-- Settles O35: the counts agree in either order, the check on the indices is the same, and so is the bank written. -/
theorem setBitsOrderIsFree : Obligations.SetBitsOrderIsFree := by
  intro s bk idx idx' vals vals' hs hd hl hl' hperm
  have hidx : (idx.map BitVec.toNat).Perm (idx'.map BitVec.toNat) := by
    have hfst := hperm.map Prod.fst
    rw [List.map_fst_zip hl.le, List.map_fst_zip hl'.le] at hfst
    exact hfst.map _
  have hwrites : ((idx.map BitVec.toNat).zip vals).Perm ((idx'.map BitVec.toNat).zip vals') := by
    rw [zip_map_toNat, zip_map_toNat]
    exact hperm.map _
  have hdistinct : (((idx.map BitVec.toNat).zip vals).map Prod.fst).Nodup := by
    rw [List.map_fst_zip (by simp [hl])]
    exact hd.map fun _ _ => BitVec.eq_of_toNat_eq
  rw [exec_setBits, exec_setBits]
  refine onBank_congr ?_
  rw [if_neg (not_not.mpr hl), if_neg (not_not.mpr hl'), bitsCheck_perm hidx, setBitsAt_perm (bank_wf hs bk).2.1 hwrites hdistinct]

end Sys2Proof.Machine
end

section
/-! SUPPORT. The statements of 43_byte_access.md: the bytes that the two readers return, and the bytes that the two writers leave. -/

namespace Sys2Proof.Machine

/-! ### getByte (R141) -/

theorem encode_getByte (bk : BankNo) (i : Half) : encode (.getByte bk i) = [headerOf 0x20 bk.toNat 0 i.toNat] :=
  congrArg (fun h => [h]) (headerWord_eq .getByte bk 0 i)

/-- Settles O36: the two outcomes of the range check from the index to itself. -/
theorem getByteCompletes : Obligations.GetByteCompletes := by
  refine fun s bk i hr => ⟨encode_getByte bk i, fun hi => ?_, fun hi => ?_⟩
  · have hret := exec_returned (exec_getByte bk s i) rfl hr (rangeCheck_none le_rfl hi)
    rwa [byteWord] at hret
  · exact fails_of_check (exec_getByte bk s i) rfl hr (rangeCheck_bounds le_rfl hi)

/-! ### setByte (R142) -/

/-- The operand word of setByte carries the value in `WC[7:0]` (R62). -/
theorem encode_setByte (bk : BankNo) (i : Half) (v : Byte) :
    encode (.setByte bk i v) = [headerOf 0x21 bk.toNat 0 i.toNat, operandOf 0 v.toNat] := by
  have hoperand := operandWord_eq 0 (v.setWidth 16)
  rw [BitVec.toNat_setWidth_of_le (by decide)] at hoperand
  exact congrArg₂ (fun h w => [h, w]) (headerWord_eq .setByte bk 0 i) hoperand

/-- A constructed bank after one byte is written, position by position (R10). -/
theorem holds_setByte {b : Bank} (h : b.bytes.WF) (hv : b.valid = true) (a : Nat) (v : Byte) :
    (b.setByte a v).Holds b.len fun j => if j = a then v else b.byte j :=
  ⟨hv, setByte_len .., byte_setByte h a v⟩

/-- Settles O37: the two outcomes of the range check from the index to itself, and behind it every byte after one is written. -/
theorem setByteCompletes : Obligations.SetByteCompletes := by
  refine fun s bk i v hr => ⟨encode_setByte bk i v, fun hi => ?_, fun hi => ?_⟩
  · exact commits_of_check (exec_setByte bk s i v) rfl hr (rangeCheck_none le_rfl hi)
      (holds_setByte (ready_bytes_wf hr) hr.2.2 i.toNat v)
  · exact fails_of_check (exec_setByte bk s i v) rfl hr (rangeCheck_bounds le_rfl hi)

/-! ### getBytes (R143) -/

theorem encode_getBytes (bk : BankNo) (first last : Half) :
    encode (.getBytes bk first last) = [headerOf 0x22 bk.toNat 0 first.toNat, operandOf 0 last.toNat] :=
  congrArg₂ (fun h w => [h, w]) (headerWord_eq .getBytes bk 0 first) (operandWord_eq 0 last)

/-- The result words of a block read, in ascending order (R143). -/
theorem map_byteWord_memRead (b : Bank) (a n : Nat) :
    (b.memRead a n).map byteWord = (List.range' a n).map fun j => (b.byte j).setWidth 32 :=
  List.map_map

/-- Settles O38: the three outcomes of the range check. -/
theorem getBytesCompletes : Obligations.GetBytesCompletes := by
  refine fun s bk first last hr =>
    ⟨encode_getBytes bk first last, fun horder => ?_, fun hle => ⟨fun hout => ?_, fun hin => ?_⟩⟩
  · exact fails_of_check (exec_getBytes bk s first last) rfl hr (rangeCheck_order horder)
  · exact fails_of_check (exec_getBytes bk s first last) rfl hr (rangeCheck_bounds hle hout)
  · have hret := exec_returned (exec_getBytes bk s first last) rfl hr (rangeCheck_none hle hin)
    rwa [map_byteWord_memRead] at hret

/-! ### setBytes (R144) -/

theorem encode_setBytes (bk : BankNo) (first last : Half) {vals : List Byte} (hn : vals.length < 65536) :
    encode (.setBytes bk first last vals) = headerOf 0x23 bk.toNat 0 first.toNat ::
      operandOf vals.length last.toNat :: vals.map (BitVec.setWidth 32) := by
  have hoperand := operandWord_eq (countField vals) last
  rw [toNat_countField hn] at hoperand
  exact congrArg₂ (fun h w => h :: w :: vals.map byteWord) (headerWord_eq .setBytes bk 0 first) hoperand

/-- R144's condition on the count, an integer equation, holds exactly when the count and the bounds agree as natural numbers. -/
theorem count_matches_iff (n first last : Nat) : (n : Int) = (last : Int) - (first : Int) + 1 ↔ n + first = last + 1 := by
  omega

/-- A constructed bank after a block of bytes is written to an inclusive range, position by position (R10, R144). -/
theorem holds_memWrite {b : Bank} (h : b.bytes.WF) (hv : b.valid = true) {first last : Nat} {vals : List Byte}
    (hn : vals.length + first = last + 1) :
    (b.memWrite first vals).Holds b.len fun j =>
      if first ≤ j ∧ j ≤ last then vals.getD (j - first) 0 else b.byte j := by
  refine ⟨hv, memWrite_len .., fun j => ?_⟩
  have hrange : j < first + vals.length ↔ j ≤ last := by omega
  simp only [byte_memWrite h, hrange]

/-- Settles O39: the check on the count, then the three outcomes of the range check, and behind them every byte after the block is
written. -/
theorem setBytesCompletes : Obligations.SetBytesCompletes := by
  refine fun s bk first last vals hr hn => ⟨encode_setBytes bk first last hn, fun hne => ?_, fun heq => ?_⟩
  · exact fails_of_check (exec_setBytes bk s first last vals) rfl hr (if_pos (mt (count_matches_iff ..).mp hne))
  · have hcount := not_not.mpr ((count_matches_iff ..).mpr heq)
    refine ⟨fun horder => ?_, fun hle => ⟨fun hout => ?_, fun hin => ?_⟩⟩
    · exact fails_of_check (exec_setBytes bk s first last vals) rfl hr ((if_neg hcount).trans (rangeCheck_order horder))
    · exact fails_of_check (exec_setBytes bk s first last vals) rfl hr ((if_neg hcount).trans (rangeCheck_bounds hle hout))
    · exact commits_of_check (exec_setBytes bk s first last vals) rfl hr ((if_neg hcount).trans (rangeCheck_none hle hin))
        (holds_memWrite (ready_bytes_wf hr) hr.2.2 heq)

end Sys2Proof.Machine
end

section
/-! SUPPORT. The statements of 44_checksum.md: the computed checksum as a sum of bytes, what validation and fixing find, and one changed
byte. -/

namespace Sys2Proof.Machine

/-! ### The checksum as a sum (R161) -/

/-- Reducing the integer sum once is adding with a wrap each time (R161). -/
theorem ofNat_sum_toNat (bs : List Byte) : BitVec.ofNat 8 (bs.map BitVec.toNat).sum = bs.sum := by
  induction bs with
  | nil => rfl
  | cons v bs ih =>
    rw [List.map_cons, List.sum_cons, List.sum_cons, BitVec.ofNat_add, BitVec.ofNat_toNat, BitVec.setWidth_eq, ih]

/-- The sum over the interval of R161 runs over the positions that the machine lists. -/
theorem sum_Icc_eq_sum_range' {M : Type} [AddCommMonoid M] (f : Nat → M) (lo : Nat) :
    ∑ j ∈ Finset.Icc lo Config.csumHi, f j = ((List.range' lo (Config.csumHi + 1 - lo)).map f).sum := rfl

/-- The checksum is the integer sum reduced once (R161). -/
theorem csum_toNat (b : Bank) (lo : Nat) : (b.csum lo).toNat = b.checksumValue lo := by
  rw [Bank.csum, BitVec.toNat_ofNat, Nat.mod_mod, ← sum_Icc_eq_sum_range']
  rfl

/-- The checksum is the sum of the listed bytes, in the arithmetic of bytes. -/
theorem csum_eq_list_sum (b : Bank) (lo : Nat) :
    b.csum lo = ((List.range' lo (Config.csumHi + 1 - lo)).map b.byte).sum := by
  rw [← ofNat_sum_toNat, List.map_map]
  apply BitVec.eq_of_toNat_eq
  rw [Bank.csum, BitVec.toNat_ofNat, BitVec.toNat_ofNat, Nat.mod_mod]
  rfl

/-- Settles O42: both readings are the sum of the same listed bytes. -/
theorem checksumIsTheWrappedSum : Obligations.ChecksumIsTheWrappedSum :=
  fun b lo => ⟨csum_toNat b lo, (csum_eq_list_sum b lo).trans List.sum_eq_foldl⟩

/-- A byte is the machine's checksum exactly when its number is the spec's (R161). -/
theorem toNat_eq_checksumValue_iff (b : Bank) (v : Byte) (lo : Nat) : v.toNat = b.checksumValue lo ↔ v = b.csum lo := by
  rw [← csum_toNat, BitVec.toNat_inj]

/-- One written byte moves the checksum by its change where it is summed, and not at all elsewhere. -/
theorem csum_setByte {b : Bank} (h : b.bytes.WF) (a : Nat) (v : Byte) (lo : Nat) :
    (b.setByte a v).csum lo = b.csum lo + if lo ≤ a ∧ a ≤ Config.csumHi then v - b.byte a else 0 := by
  have hbyte : ∀ j, (b.setByte a v).byte j = b.byte j + if j = a then v - b.byte a else 0 := by
    intro j
    rw [byte_setByte h]
    split
    · next hj => rw [hj, add_sub_cancel]
    · rw [add_zero]
  simp only [csum_eq_list_sum, ← sum_Icc_eq_sum_range', hbyte, Finset.sum_add_distrib, Finset.sum_ite_eq', Finset.mem_Icc]

/-! ### validateChecksum (R162) -/

theorem encode_validateChecksum (bk : BankNo) : encode (.validateChecksum bk) = [headerOf 0x30 bk.toNat 0 0] :=
  congrArg (fun h => [h]) (headerWord_eq .validateChecksum bk 0 0)

/-- A checksum byte that is not the computed sum is reported (R162). -/
theorem validateChecksum_fails {s : State} {bk : BankNo} (hr : Ready s bk) (hl : Config.csumPos < (s.bank bk).len)
    (hne : (s.bank bk).byte Config.csumPos ≠ (s.bank bk).csum s.cfg.csumLo) : Fails (.validateChecksum bk) s 9 := by
  refine fails_of_onBank (c := .checksum) (exec_validateChecksum bk s) hr ?_
  rw [Instr.bank, positionCheck_none hl, afterCheck_none, if_pos hne]

/-- Settles O43: the check on the position, then the two outcomes of the comparison. -/
theorem validateChecksumCompletes : Obligations.ValidateChecksumCompletes := by
  refine fun s bk hr => ⟨encode_validateChecksum bk, fun hshort => ?_, fun hl => ⟨fun hne => ?_, fun heq => ?_⟩⟩
  · exact fails_of_check (exec_validateChecksum bk s) rfl hr (positionCheck_some hshort)
  · exact validateChecksum_fails hr hl (mt (toNat_eq_checksumValue_iff ..).mpr hne)
  · exact validateChecksum_returns hr hl ((toNat_eq_checksumValue_iff ..).mp heq)

/-! ### fixChecksum (R163) -/

theorem encode_fixChecksum (bk : BankNo) : encode (.fixChecksum bk) = [headerOf 0x31 bk.toNat 0 0] :=
  congrArg (fun h => [h]) (headerWord_eq .fixChecksum bk 0 0)

/-- A fixed bank holds its own checksum: the byte that the fixer writes is not summed (R161, R163). -/
theorem byte_csumPos_of_fixed {b : Bank} (h : b.bytes.WF) (lo : Nat) :
    (b.setByte Config.csumPos (b.csum lo)).byte Config.csumPos = (b.setByte Config.csumPos (b.csum lo)).csum lo := by
  rw [byte_setByte h, if_pos rfl, csum_setByte_csumPos h]

/-- Settles O44: the two outcomes of the check on the position, and behind it the bank after byte 17 is written. -/
theorem fixChecksumCompletes : Obligations.FixChecksumCompletes := by
  refine fun s bk hr => ⟨encode_fixChecksum bk, fun hshort => ?_, fun hl => ⟨?_, fun t ht => ?_⟩⟩
  · exact fails_of_check (exec_fixChecksum bk s) rfl hr (positionCheck_some hshort)
  · rw [← csum_toNat, BitVec.ofNat_toNat, BitVec.setWidth_eq]
    exact commits_of_check (exec_fixChecksum bk s) rfl hr (positionCheck_none hl)
      (holds_setByte (ready_bytes_wf hr) hr.2.2 Config.csumPos _)
  · obtain ⟨t', ht', hready, hbank⟩ := exec_written (exec_fixChecksum bk s) rfl hr (positionCheck_none hl) (setByte_valid ..)
    cases ht.symm.trans ht'
    refine validateChecksum_returns hready ?_ ?_
    · rwa [hbank, setByte_len]
    · rw [hbank, exec_keeps_cfg ht, byte_csumPos_of_fixed (ready_bytes_wf hr)]

/-! ### One changed byte (R164) -/

theorem csumLo_le_csumHi {s : State} (hs : s.WF) : s.cfg.csumLo ≤ Config.csumHi := by
  obtain ⟨⟨-, -, hlo⟩, -, -⟩ := hs
  rw [Config.csumHi]
  omega

/-- After one byte of a validating bank is written, the checksum byte is the computed sum exactly when the position is neither summed
nor the checksum byte, or the value is the old one (R164). -/
theorem setByte_validates_iff {b : Bank} (h : b.bytes.WF) {lo : Nat} (hlo : lo ≤ Config.csumHi)
    (hsum : b.byte Config.csumPos = b.csum lo) (a : Nat) (v : Byte) :
    (b.setByte a v).byte Config.csumPos = (b.setByte a v).csum lo ↔ a < lo ∨ Config.csumPos < a ∨ v = b.byte a := by
  have hnext : Config.csumPos = Config.csumHi + 1 := rfl
  rw [csum_setByte h, byte_setByte h, ← hsum]
  by_cases hpos : Config.csumPos = a
  · have hout : ¬ (lo ≤ a ∧ a ≤ Config.csumHi) := by omega
    have hat : ¬ a < lo := by omega
    simp [hout, hpos, hat]
  · rw [if_neg hpos, left_eq_add]
    by_cases hin : lo ≤ a ∧ a ≤ Config.csumHi
    · have hbelow : ¬ a < lo := by omega
      have habove : ¬ Config.csumPos < a := by omega
      rw [if_pos hin, sub_eq_zero]
      simp [hbelow, habove]
    · have hout : a < lo ∨ Config.csumPos < a := by omega
      rw [if_neg hin, ← or_assoc]
      exact iff_of_true rfl (.inl hout)

/-- Settles O45: the bank after the write validates or not by `setByte_validates_iff`. -/
theorem checksumDetectsOneChangedByte : Obligations.ChecksumDetectsOneChangedByte := by
  intro s bk i v hr hl hi hval
  obtain ⟨t, ht, hready, hbank⟩ := exec_written (exec_setByte bk s i v) rfl hr (rangeCheck_none le_rfl hi) (setByte_valid ..)
  have hlen : Config.csumPos < (t.bank bk).len := by rwa [hbank, setByte_len]
  have hsum := (toNat_eq_checksumValue_iff ..).mp hval
  have hiff : (t.bank bk).byte Config.csumPos = (t.bank bk).csum t.cfg.csumLo ↔
      i.toNat < s.cfg.csumLo ∨ Config.csumPos < i.toNat ∨ v = (s.bank bk).byte i.toNat := by
    rw [hbank, exec_keeps_cfg ht]
    exact setByte_validates_iff (ready_bytes_wf hr) (csumLo_le_csumHi hr.1) hsum i.toNat v
  refine ⟨t, ht, fun hdetected => ?_, fun hmissed => validateChecksum_returns hready hlen (hiff.mpr hmissed)⟩
  obtain ⟨hlow, hhigh, hne⟩ := hdetected
  refine validateChecksum_fails hready hlen fun heq => ?_
  rcases hiff.mp heq with hbelow | habove | hsame
  · exact absurd hlow (Nat.not_le.mpr hbelow)
  · exact absurd hhigh (Nat.not_le.mpr habove)
  · exact hne hsame

end Sys2Proof.Machine
end

section
/-! SUPPORT. The statements of 45_rotation.md. Both commands are one map on banks, the rotation of the window left by `k` bits with `k`
added to the counter: rotateLeft for `k = 1` and rotateRight for `k = 255`. Two such maps compose by adding their numbers, and a multiple
of 256 is the identity; a round trip, a repeated command and the periods are sums of numbers. -/

namespace Sys2Proof.Machine

/-! ### Rotating a window by any number of bits -/

/-- The bit at position `p` of the window goes to position `p + k` modulo 128 (R182). -/
theorem getLsbD_rotateLeft_of_position (w : Window) (k : Nat) {p q : Nat} (hp : p < 128) (hq : q = (p + k) % 128) :
    (w.rotateLeft k).getLsbD q = w.getLsbD p := by
  have hr : k % 128 < 128 := Nat.mod_lt k (by decide)
  have hsum : q = (p + k % 128) % 128 := by rw [hq, Nat.add_mod_mod]
  rw [BitVec.getLsbD_rotateLeft]
  by_cases hwrap : p + k % 128 < 128
  · rw [Nat.mod_eq_of_lt hwrap] at hsum
    rw [decide_eq_false (by omega), cond_false, decide_eq_true (by omega), Bool.true_and, show q - k % 128 = p by omega]
  · rw [decide_eq_true (by omega), cond_true, show 128 - k % 128 + q = p by omega]

theorem rotateLeft_rotateLeft (w : Window) (m k : Nat) : (w.rotateLeft m).rotateLeft k = w.rotateLeft (m + k) := by
  refine BitVec.eq_of_getLsbD_eq fun q hq => ?_
  have hp : (q + 127 * (m + k)) % 128 < 128 := Nat.mod_lt _ (by decide)
  have hmid : ((q + 127 * (m + k)) % 128 + m) % 128 < 128 := Nat.mod_lt _ (by decide)
  rw [getLsbD_rotateLeft_of_position w (m + k) hp (by omega), getLsbD_rotateLeft_of_position _ k hmid (by omega),
    getLsbD_rotateLeft_of_position w m hp rfl]

theorem rotateLeft_of_dvd (w : Window) {k : Nat} (hk : 128 ∣ k) : w.rotateLeft k = w :=
  BitVec.eq_of_getLsbD_eq fun q hq => getLsbD_rotateLeft_of_position w k hq (by omega)

/-- A rotated window as a number: the bits that stay inside, and those that come in below (R182). -/
theorem toNat_rotateLeft_window (w : Window) (k : Nat) :
    (w.rotateLeft k).toNat = w.toNat * 2 ^ (k % 128) % 2 ^ 128 + w.toNat / 2 ^ (128 - k % 128) := by
  have hr : k % 128 < 128 := Nat.mod_lt k (by decide)
  have hsplit : 2 ^ 128 = 2 ^ (128 - k % 128) * 2 ^ (k % 128) := by rw [← Nat.pow_add, Nat.sub_add_cancel hr.le]
  have hlow : w.toNat / 2 ^ (128 - k % 128) < 2 ^ (k % 128) :=
    Nat.div_lt_of_lt_mul (hsplit ▸ w.isLt)
  rw [BitVec.toNat_rotateLeft, Nat.shiftLeft_eq, Nat.shiftRight_eq_div_pow, hsplit, Nat.mul_mod_mul_right,
    ← Nat.shiftLeft_eq, Nat.shiftLeft_add_eq_or_of_lt hlow]

/-- The model's rotation right by one bit is a rotation left by 127, and so by 255 (R183). -/
theorem rotatedRight_eq_rotateLeft (w : Window) : rotatedRight w = w.rotateLeft 255 := by
  have hlow : (w &&& 1) <<< 127 = w <<< 127 := by
    refine BitVec.eq_of_getLsbD_eq fun i hi => ?_
    simp only [BitVec.getLsbD_shiftLeft, BitVec.getLsbD_and, BitVec.ofNat_eq_ofNat, BitVec.getLsbD_one]
    by_cases h127 : i < 127
    · simp [h127]
    · obtain rfl : i = 127 := by omega
      simp
  rw [rotatedRight, hlow, BitVec.rotateLeft_def, BitVec.or_comm]

/-! ### The window of an unpacked bank -/

theorem window_unpack {b : Bank} (h : b.bytes.WF) (w : Window) : (b.unpack w).window = w := by
  refine BitVec.eq_of_getLsbD_eq fun q hq => ?_
  have hq' : q = 8 * (15 - (15 - q / 8)) + q % 8 := by omega
  have hn : q % 8 < 8 := Nat.mod_lt q (by decide)
  conv_lhs => rw [hq', getLsbD_window _ (by omega) hn, byte_unpack h, if_pos (by omega)]
  rw [BitVec.getLsbD_setWidth, decide_eq_true hn, Bool.true_and, BitVec.getLsbD_ushiftRight, ← hq']

/-- Equal windows hold equal bytes (R181). -/
theorem byte_eq_of_window_eq {b c : Bank} (h : b.window = c.window) {j : Nat} (hj : j < 16) : b.byte j = c.byte j :=
  BitVec.eq_of_getLsbD_eq fun n hn => by rw [← getLsbD_window b hj hn, h, getLsbD_window c hj hn]

theorem window_setByte_of_le {b : Bank} (h : b.bytes.WF) {a : Nat} (ha : 16 ≤ a) (v : Byte) :
    (b.setByte a v).window = b.window := by
  refine BitVec.eq_of_getLsbD_eq fun q hq => ?_
  have hn : q % 8 < 8 := Nat.mod_lt q (by decide)
  rw [show q = 8 * (15 - (15 - q / 8)) + q % 8 by omega, getLsbD_window _ (by omega) hn, getLsbD_window _ (by omega) hn,
    byte_setByte h, if_neg (by omega)]

/-! ### A bank turned by `k` -/

/-- The bank with its window rotated left by `k` bits and `k` added to its counter byte (R182). -/
def Bank.turned (b : Bank) (k : Nat) : Bank :=
  (b.unpack (b.window.rotateLeft k)).setByte Config.ctrPos (b.byte Config.ctrPos + BitVec.ofNat 8 k)

@[simp] theorem turned_valid (b : Bank) (k : Nat) : (b.turned k).valid = b.valid := by
  rw [Bank.turned, setByte_valid, unpack_valid]
@[simp] theorem turned_len (b : Bank) (k : Nat) : (b.turned k).len = b.len := by
  rw [Bank.turned, setByte_len, unpack_len]

section Turned
variable {b : Bank}

theorem wf_turned (h : b.bytes.WF) (k : Nat) : (b.turned k).bytes.WF := by
  rw [Bank.turned, setByte_bytes]
  exact wf_write (wf_unpack h _) _ _

theorem window_turned (h : b.bytes.WF) (k : Nat) : (b.turned k).window = b.window.rotateLeft k := by
  rw [Bank.turned, window_setByte_of_le (wf_unpack h _) (a := Config.ctrPos) le_rfl, window_unpack h]

theorem byte_ctrPos_turned (h : b.bytes.WF) (k : Nat) :
    (b.turned k).byte Config.ctrPos = b.byte Config.ctrPos + BitVec.ofNat 8 k := by
  rw [Bank.turned, byte_setByte (wf_unpack h _), if_pos rfl]

/-- Behind the counter every byte is kept (R182). -/
theorem byte_turned_of_lt (h : b.bytes.WF) (k : Nat) {j : Nat} (hj : Config.ctrPos < j) : (b.turned k).byte j = b.byte j := by
  have h16 : ¬ j < 16 := Nat.not_lt.mpr hj.le
  rw [Bank.turned, byte_setByte (wf_unpack h _), if_neg hj.ne', byte_unpack h, if_neg h16]

/-- Two banks agree when their windows, their counters and the bytes behind agree. -/
theorem bank_ext_window {c : Bank} (hb : b.bytes.WF) (hc : c.bytes.WF) (hv : b.valid = c.valid) (hl : b.len = c.len)
    (hw : b.window = c.window) (hctr : b.byte Config.ctrPos = c.byte Config.ctrPos)
    (hrest : ∀ j, Config.ctrPos < j → b.byte j = c.byte j) : b = c := by
  refine bank_ext hb hc hv hl fun j => ?_
  rcases Nat.lt_trichotomy j Config.ctrPos with hlow | rfl | hhigh
  · exact byte_eq_of_window_eq hw hlow
  · exact hctr
  · exact hrest j hhigh

/-- Turning by `m` and then by `k` is turning by their sum. -/
theorem turned_turned (h : b.bytes.WF) (m k : Nat) : (b.turned m).turned k = b.turned (m + k) := by
  have hm := wf_turned h m
  refine bank_ext_window (wf_turned hm k) (wf_turned h (m + k)) (by simp) (by simp) ?_ ?_ fun j hj => ?_
  · rw [window_turned hm, window_turned h, window_turned h, rotateLeft_rotateLeft]
  · rw [byte_ctrPos_turned hm, byte_ctrPos_turned h, byte_ctrPos_turned h, BitVec.ofNat_add, BitVec.add_assoc]
  · rw [byte_turned_of_lt hm k hj, byte_turned_of_lt h m hj, byte_turned_of_lt h (m + k) hj]

/-- Turning by a multiple of 128 restores the window (R185). -/
theorem byte_turned_of_dvd (h : b.bytes.WF) {k : Nat} (hk : 128 ∣ k) {j : Nat} (hj : j < 16) : (b.turned k).byte j = b.byte j :=
  byte_eq_of_window_eq (by rw [window_turned h, rotateLeft_of_dvd _ hk]) hj

/-- Turning by a multiple of 256 restores every byte (R185). -/
theorem turned_of_dvd (h : b.bytes.WF) {k : Nat} (hk : 256 ∣ k) : b.turned k = b := by
  have hzero : BitVec.ofNat 8 k = 0 := BitVec.eq_of_toNat_eq (by simpa using Nat.mod_eq_zero_of_dvd hk)
  refine bank_ext_window (wf_turned h k) h (turned_valid ..) (turned_len ..) ?_ ?_ fun j hj => byte_turned_of_lt h k hj
  · rw [window_turned h, rotateLeft_of_dvd _ (dvd_trans (by decide) hk)]
  · rw [byte_ctrPos_turned h, hzero, add_zero]

/-! ### A turned bank in numbers -/

theorem toNat_ctrPos_turned (h : b.bytes.WF) (k : Nat) :
    ((b.turned k).byte Config.ctrPos).toNat = ((b.byte Config.ctrPos).toNat + k) % 256 := by
  rw [byte_ctrPos_turned h, BitVec.toNat_add, BitVec.toNat_ofNat, Nat.add_mod_mod]

theorem windowValue_turned (h : b.bytes.WF) (k : Nat) :
    (b.turned k).windowValue = b.windowValue * 2 ^ (k % 128) % 2 ^ 128 + b.windowValue / 2 ^ (128 - k % 128) := by
  rw [← window_toNat, window_turned h, toNat_rotateLeft_window, window_toNat]

/-- Turning by `n` times 255 rotates the window right by `n` bits (R183, R185). -/
theorem windowValue_turned_right (h : b.bytes.WF) (n : Nat) :
    (b.turned (n * 255)).windowValue =
      b.windowValue / 2 ^ (n % 128) + b.windowValue % 2 ^ (n % 128) * 2 ^ (128 - n % 128) := by
  have hlt : b.windowValue < 2 ^ 128 := window_toNat b ▸ b.window.isLt
  rw [windowValue_turned h]
  by_cases hn : n % 128 = 0
  · rw [hn, show n * 255 % 128 = 0 by omega, Nat.pow_zero, Nat.mul_one, Nat.mod_eq_of_lt hlt, Nat.div_eq_of_lt hlt, Nat.div_one,
      Nat.mod_one, Nat.zero_mul]
  · have hr : n % 128 < 128 := Nat.mod_lt n (by decide)
    have hsplit : 2 ^ 128 = 2 ^ (n % 128) * 2 ^ (128 - n % 128) := by rw [← Nat.pow_add, Nat.add_sub_cancel' hr.le]
    rw [show n * 255 % 128 = 128 - n % 128 by omega, Nat.sub_sub_self hr.le, hsplit, Nat.mul_mod_mul_right, Nat.add_comm]

/-! ### A turned bank bit by bit -/

/-- Bit `n'` of byte `j'` goes `k` positions up in the window, to bit `n` of byte `j` (R181, R186). -/
theorem getLsbD_byte_turned (h : b.bytes.WF) (k : Nat) {j n j' n' : Nat} (hj : j < 16) (hn : n < 8) (hj' : j' < 16) (hn' : n' < 8)
    (hpos : 8 * (15 - j) + n = (8 * (15 - j') + n' + k) % 128) :
    ((b.turned k).byte j).getLsbD n = (b.byte j').getLsbD n' := by
  rw [← getLsbD_window _ hj hn, window_turned h, getLsbD_rotateLeft_of_position b.window k (by omega) hpos,
    getLsbD_window b hj' hn']

/-- rotateLeft's loop body: the byte moves up and the top bit of the byte behind it, cyclically, comes in (R184). -/
theorem byte_turned_left (h : b.bytes.WF) {j : Nat} (hj : j < 16) :
    (b.turned 1).byte j = b.byte j <<< 1 ||| b.byte ((j + 1) % 16) >>> 7 := by
  refine BitVec.eq_of_getLsbD_eq fun n hn => ?_
  rw [BitVec.getLsbD_or, BitVec.getLsbD_shiftLeft, BitVec.getLsbD_ushiftRight]
  by_cases h0 : n = 0
  · subst h0
    rw [getLsbD_byte_turned h 1 hj hn (j' := (j + 1) % 16) (n' := 7) (by omega) (by omega) (by omega)]
    simp
  · rw [getLsbD_byte_turned h 1 hj hn (j' := j) (n' := n - 1) hj (by omega) (by omega)]
    simp [hn, h0, BitVec.getLsbD_of_ge (b.byte _) (7 + n) (by omega)]

/-- rotateRight's loop body: the byte moves down and the bottom bit of the byte before it, cyclically, comes in (R184). -/
theorem byte_turned_right (h : b.bytes.WF) {j : Nat} (hj : j < 16) :
    (b.turned 255).byte j = b.byte j >>> 1 ||| b.byte ((j + 15) % 16) <<< 7 := by
  refine BitVec.eq_of_getLsbD_eq fun n hn => ?_
  rw [BitVec.getLsbD_or, BitVec.getLsbD_shiftLeft, BitVec.getLsbD_ushiftRight]
  by_cases h7 : n = 7
  · subst h7
    rw [getLsbD_byte_turned h 255 hj hn (j' := (j + 15) % 16) (n' := 0) (by omega) (by omega) (by omega)]
    simp
  · rw [getLsbD_byte_turned h 255 hj hn (j' := j) (n' := n + 1) hj (by omega) (by omega)]
    simp [show n < 7 by omega, Nat.add_comm]

/-- The bit index to which rotateLeft moves bit `n` of byte `j` (R186). -/
def leftIndex (j n : Nat) : Nat := if n < 7 then 8 * j + n + 1 else if 1 ≤ j then 8 * (j - 1) else 120

/-- That index is one position up in the window. -/
theorem leftIndex_spec {j n : Nat} (hj : j < 16) (hn : n < 8) :
    ∃ j' n', j' < 16 ∧ n' < 8 ∧ leftIndex j n = 8 * j' + n' ∧ 8 * (15 - j') + n' = (8 * (15 - j) + n + 1) % 128 := by
  unfold leftIndex
  split_ifs with hin hbefore
  · exact ⟨j, n + 1, by omega⟩
  · exact ⟨j - 1, 0, by omega⟩
  · exact ⟨15, 0, by omega⟩

theorem bitSet_turned_left (h : b.bytes.WF) {j n : Nat} (hj : j < 16) (hn : n < 8) :
    (b.turned 1).bitSet (leftIndex j n) = b.bitSet (8 * j + n) := by
  obtain ⟨j', n', hj', hn', hindex, hpos⟩ := leftIndex_spec hj hn
  rw [hindex, bitSet_byte _ _ hn', bitSet_byte _ _ hn, getLsbD_byte_turned h 1 hj' hn' hj hn hpos]

theorem bitSet_turned_right (h : b.bytes.WF) {j n : Nat} (hj : j < 16) (hn : n < 8) :
    (b.turned 255).bitSet (8 * j + n) = b.bitSet (leftIndex j n) := by
  obtain ⟨j', n', hj', hn', hindex, hpos⟩ := leftIndex_spec hj hn
  rw [hindex, bitSet_byte _ _ hn', bitSet_byte _ _ hn, getLsbD_byte_turned h 255 hj hn hj' hn' (by omega)]

end Turned

/-! ### Commands that turn their bank -/

/-- The command turns its bank by `k`, behind the check on the counter byte (R180). -/
def Turns (i : Instr) (bk : BankNo) (k : Nat) : Prop :=
  i.bank = bk ∧ ∀ s, exec i s =
    onBank bk (fun b => afterCheck (positionCheck b.len Config.ctrPos) (writeOnly (b.turned k))) s

theorem turns_rotateLeft (bk : BankNo) : Turns (.rotateLeft bk) bk 1 := ⟨rfl, fun _ => rfl⟩

theorem turns_rotateRight (bk : BankNo) : Turns (.rotateRight bk) bk 255 := by
  refine ⟨rfl, fun s => ?_⟩
  simp only [exec_rotateRight, rotatedRight_eq_rotateLeft]
  rfl

section Turns
variable {i : Instr} {s : State} {bk : BankNo} {k : Nat}

theorem fails_of_turns (ht : Turns i bk k) (hr : Ready s bk) (hl : (s.bank bk).len ≤ Config.ctrPos) : Fails i s 7 :=
  fails_of_check (ht.2 s) ht.1 hr (positionCheck_some hl)

theorem commits_of_turns (ht : Turns i bk k) (hr : Ready s bk) (hl : Config.ctrPos < (s.bank bk).len) {P : Bank → Prop}
    (hP : P ((s.bank bk).turned k)) : Commits i s P :=
  commits_of_check (ht.2 s) ht.1 hr (positionCheck_none hl) hP

theorem exec_turned (ht : Turns i bk k) (hr : Ready s bk) (hl : Config.ctrPos < (s.bank bk).len) :
    ∃ t, exec i s = .next t ∧ Ready t bk ∧ t.bank bk = (s.bank bk).turned k :=
  exec_written (new := fun b => b.turned k) (ht.2 s) ht.1 hr (positionCheck_none hl) (turned_valid (s.bank bk) k)

theorem repeatExec_succ {t : State} (h : exec i s = .next t) (n : Nat) : repeatExec (n + 1) i s = repeatExec n i t := by
  rw [repeatExec, h]

/-- `n` copies of the command turn the bank by `n` times its number (R81, R185). -/
theorem repeatExec_turned (ht : Turns i bk k) (hr : Ready s bk) (hl : Config.ctrPos < (s.bank bk).len) (n : Nat) :
    ∃ t, repeatExec n i s = .next t ∧ t.bank bk = (s.bank bk).turned (n * k) := by
  induction n generalizing s with
  | zero => exact ⟨s, rfl, by rw [Nat.zero_mul, turned_of_dvd (ready_bytes_wf hr) (dvd_zero _)]⟩
  | succ n ih =>
    obtain ⟨t, hstep, hready, hbank⟩ := exec_turned ht hr hl
    obtain ⟨u, hrest, hu⟩ := ih hready (by rwa [hbank, turned_len])
    refine ⟨u, (repeatExec_succ hstep n).trans hrest, ?_⟩
    rw [hu, hbank, turned_turned (ready_bytes_wf hr), Nat.succ_mul, Nat.add_comm]

/-- A command and then one that turns the bank on to a multiple of 256 restore the bank (R185). -/
theorem exec_turned_back {i' : Instr} {k' : Nat} (ht : Turns i bk k) (ht' : Turns i' bk k') (hk : 256 ∣ k + k') (hr : Ready s bk)
    (hl : Config.ctrPos < (s.bank bk).len) :
    ∃ t u, exec i s = .next t ∧ exec i' t = .next u ∧ u.bank bk = s.bank bk := by
  obtain ⟨t, hfirst, hready, hbank⟩ := exec_turned ht hr hl
  obtain ⟨u, hsecond, -, hu⟩ := exec_turned ht' hready (by rwa [hbank, turned_len])
  exact ⟨t, u, hfirst, hsecond, by rw [hu, hbank, turned_turned (ready_bytes_wf hr), turned_of_dvd (ready_bytes_wf hr) hk]⟩

end Turns

/-! ### The statements -/

theorem encode_rotateLeft (bk : BankNo) : encode (.rotateLeft bk) = [headerOf 0x40 bk.toNat 0 0] :=
  congrArg (fun h => [h]) (headerWord_eq .rotateLeft bk 0 0)

theorem encode_rotateRight (bk : BankNo) : encode (.rotateRight bk) = [headerOf 0x41 bk.toNat 0 0] :=
  congrArg (fun h => [h]) (headerWord_eq .rotateRight bk 0 0)

/-- Settles O47: the two outcomes of the check on the counter byte, and behind it the bank turned by 1. -/
theorem rotateLeftCompletes : Obligations.RotateLeftCompletes := by
  refine fun s bk hr => ⟨encode_rotateLeft bk, fails_of_turns (turns_rotateLeft bk) hr, fun hl => ?_⟩
  have hwf := ready_bytes_wf hr
  exact commits_of_turns (turns_rotateLeft bk) hr hl ⟨(turned_valid ..).trans hr.2.2, turned_len .., windowValue_turned hwf 1,
    toNat_ctrPos_turned hwf 1, fun j hj => byte_turned_of_lt hwf 1 hj⟩

/-- Settles O48: the two outcomes of the check on the counter byte, and behind it the bank turned by 255. -/
theorem rotateRightCompletes : Obligations.RotateRightCompletes := by
  refine fun s bk hr => ⟨encode_rotateRight bk, fails_of_turns (turns_rotateRight bk) hr, fun hl => ?_⟩
  have hwf := ready_bytes_wf hr
  exact commits_of_turns (turns_rotateRight bk) hr hl ⟨(turned_valid ..).trans hr.2.2, turned_len .., windowValue_turned_right hwf 1,
    toNat_ctrPos_turned hwf 255, fun j hj => byte_turned_of_lt hwf 255 hj⟩

/-- Settles O49: the loop bodies as bytes, then as numbers. -/
theorem rotationByteWise : Obligations.RotationByteWise := by
  intro s bk hr hl
  have hwf := ready_bytes_wf hr
  refine ⟨commits_of_turns (turns_rotateLeft bk) hr hl fun j hj => ?_,
    commits_of_turns (turns_rotateRight bk) hr hl fun j hj => ?_⟩
  · rw [byte_turned_left hwf hj, BitVec.toNat_or, BitVec.toNat_shiftLeft, BitVec.toNat_ushiftRight, Nat.shiftLeft_eq,
      Nat.shiftRight_eq_div_pow]
  · rw [byte_turned_right hwf hj, BitVec.toNat_or, BitVec.toNat_shiftLeft, BitVec.toNat_ushiftRight, Nat.shiftLeft_eq,
      Nat.shiftRight_eq_div_pow, Nat.pow_one, show 2 ^ 8 = 2 * 2 ^ 7 from rfl, Nat.mul_mod_mul_right]

/-- Settles O50: the numbers of a round trip add up to 256, and `n` rotations turn the bank by `n` or by `n` times 255. -/
theorem rotationLaws : Obligations.RotationLaws := by
  intro s bk hr hl
  have hwf := ready_bytes_wf hr
  have hleft := turns_rotateLeft bk
  have hright := turns_rotateRight bk
  refine ⟨exec_turned_back hleft hright (by decide) hr hl, exec_turned_back hright hleft (by decide) hr hl,
    fun n => ?_, fun n => ?_⟩
  · obtain ⟨t, ht, hbank⟩ := repeatExec_turned hleft hr hl n
    rw [Nat.mul_one] at hbank
    refine ⟨t, ht, ?_⟩
    rw [hbank]
    exact ⟨windowValue_turned hwf n, toNat_ctrPos_turned hwf n, fun j hj => byte_turned_of_lt hwf n hj,
      fun hn j hj => byte_turned_of_dvd hwf (by omega) hj, fun hn => turned_of_dvd hwf (by omega)⟩
  · obtain ⟨t, ht, hbank⟩ := repeatExec_turned hright hr hl n
    have hcount : (((t.bank bk).byte Config.ctrPos).toNat + n) % 256 = ((s.bank bk).byte Config.ctrPos).toNat := by
      have hlt := ((s.bank bk).byte Config.ctrPos).isLt
      rw [hbank, toNat_ctrPos_turned hwf]
      omega
    refine ⟨t, ht, ?_, hcount, ?_⟩ <;> rw [hbank]
    · exact windowValue_turned_right hwf n
    · exact ⟨fun j hj => byte_turned_of_lt hwf _ hj, fun hn j hj => byte_turned_of_dvd hwf (by omega) hj,
        fun hn => turned_of_dvd hwf (by omega)⟩

/-- Settles O51: rotateLeft moves every bit one position up in the window, and rotateRight one position down. -/
theorem rotationInBitIndices : Obligations.RotationInBitIndices := by
  intro s bk hr hl
  have hwf := ready_bytes_wf hr
  exact ⟨commits_of_turns (turns_rotateLeft bk) hr hl fun j n hj hn => bitSet_turned_left hwf hj hn,
    commits_of_turns (turns_rotateRight bk) hr hl fun j n hj hn => bitSet_turned_right hwf hj hn⟩

end Sys2Proof.Machine
end

section
/-! SUPPORT. The statement of 60_exceptions.md on the idle block (R211). -/

namespace Sys2Proof.Machine

/-- Settles O9: the idle case of a step, which is the model's own choice (log entry 2). -/
theorem idleHoldsTheState : Obligations.IdleHoldsTheState := fun _ hp => step_of_idle hp

end Sys2Proof.Machine
end

section
/-! SUPPORT. The statements of 70_reset_and_hazards.md: the parameters and reset (R230 to R232), and how long a program runs (R236). -/

namespace Sys2Proof.Machine

/-! ### The parameters (R231) -/

/-- Settles O24: by the inputs a step can take, none of whose next states has other parameters. -/
theorem parametersAreFixed : Obligations.ParametersAreFixed := by
  intro s t hstep
  obtain hp | ⟨p, q, hp⟩ | ⟨cut, q, hp⟩ := port_cases s
  · rw [step_of_idle hp] at hstep
    cases hstep
    rfl
  · rcases step_packet_next hp hstep with ⟨e, -, rfl⟩ | ⟨i, c, -, -, rfl⟩ | ⟨i, b, rs, -, -, rfl⟩ <;> exact answered_cfg ..
  · rw [step_of_reset hp] at hstep
    cases hstep
    exact takeReset_cfg s

/-! ### Reset (R230, R232) -/

theorem takeReset_bank_valid (s : State) (k : BankNo) : (s.takeReset.bank k).valid = false := by
  rw [takeReset_bank]
  rfl

/-- Behind a reset stands what was presented behind it (log entry 6). -/
theorem takeReset_port_of_reset {s : State} {cut : Option Packet} {q : List Input} (hp : s.port = .reset cut :: q) :
    s.takeReset.port = q := by
  rw [takeReset_port, hp, List.tail_cons]

/-- Settles O19: the reset step, field by field. -/
theorem resetUnconstructsEveryBank : Obligations.ResetUnconstructsEveryBank := fun s _ _ hp =>
  ⟨s.takeReset, step_of_reset hp, takeReset_port_of_reset hp, takeReset_out s, takeReset_cfg s,
    by rw [takeReset_banks, List.length_replicate], takeReset_bank_valid s⟩

theorem exists_copy_of_copies {i : Instr} (hi : i.copies = true) : ∃ bk src, i = .copy bk src := by
  cases i with
  | copy bk src => exact ⟨bk, src, rfl⟩
  | _ => cases hi

/-- Settles O21: the common checks 6 and 7 of R77, on banks that the reset has left unconstructed. -/
theorem afterResetOnlyConstructionWorks : Obligations.AfterResetOnlyConstructionWorks := by
  intro s cut p q i hp hd hb
  have hport := takeReset_port_of_reset hp
  refine ⟨s.takeReset, step_of_reset hp, fun hi => ?_, fun hi => ?_⟩
  · exact stepFails_of_raise hport hd (exec_notConstructed hi hb (takeReset_bank_valid s _))
  · obtain ⟨bk, src, rfl⟩ := exists_copy_of_copies hi
    exact stepFails_of_raise hport hd (exec_copy_unconstructed hb (takeReset_bank_valid s src))

/-! ### The length of a run (R236, R237) -/

/-- As many steps as packets presented take each of them and answer each once; what was presented behind them stays. -/
theorem run_packets {s : State} {ps : List Packet} {q : List Input} (hp : s.port = ps.map Input.packet ++ q) :
    ∃ t rs, Host.Core.run Sys2Proof.core ps.length s = .next t ∧ t.port = q ∧ t.cfg = s.cfg ∧
      rs.length = ps.length ∧ t.out = s.out ++ rs := by
  induction ps generalizing s with
  | nil => exact ⟨s, [], rfl, hp, rfl, rfl, (List.append_nil _).symm⟩
  | cons p ps ih =>
    obtain ⟨u, w, results, hstep, hport, hout, -⟩ := everyPacketGetsOneResponse s p (ps.map Input.packet ++ q) hp
    obtain ⟨t, rs, hrun, htport, htcfg, hlen, htout⟩ := ih hport
    refine ⟨t, (w :: results) :: rs, (run_succ_of_step hstep ps.length).trans hrun, htport,
      htcfg.trans (parametersAreFixed s u hstep), congrArg (· + 1) hlen, ?_⟩
    rw [htout, hout, List.append_assoc, List.singleton_append]

/-- Settles O16: the run of a program with nothing presented behind it, which leaves the block idle. -/
theorem packetsEndAfterAsManySteps : Obligations.PacketsEndAfterAsManySteps := by
  intro s ps hp
  have hport : (s.present ps).port = ps.map Input.packet ++ [] := by
    rw [List.append_nil, State.present, hp, List.nil_append]
  obtain ⟨t, rs, hrun, htport, hcfg, hlen, hout⟩ := run_packets hport
  exact ⟨t, rs, hrun, htport, hcfg, hlen, hout, step_of_idle htport⟩

end Sys2Proof.Machine
end
